-- ==== Sys2Proof/Word.lean ====
section
/-! DEFINITION. The word types of the block (R12: all values are unsigned bit fields). -/

namespace Sys2Proof

/-- A byte of IBUF or RAST (R34). -/
abbrev Byte := BitVec 8

/-- A 16-bit value: an RGB565 pixel word (R15) or a dimension (R29). -/
abbrev Half := BitVec 16

/-- A 32-bit value: a control register or the data bus (R22, R150). -/
abbrev Word := BitVec 32

end Sys2Proof
end

