-- ==== Sys2Proof/Syntax.lean ====
section
/-! DEFINITION. The six commands of spec/opcode_table.json (R82). -/

namespace Sys2Proof

/-- A command of the block, one constructor per row of the opcode map (R82). -/
inductive Instr where
  /-- OP 0x0, R147. -/
  | nop
  /-- OP 0x1, R103; `imm16` is the RGB565 pixel word (R83). -/
  | pixel (imm16 : Half)
  /-- OP 0x2, R106. -/
  | decode
  /-- OP 0x3, R121. -/
  | rot270
  /-- OP 0x4, R124. -/
  | hflip
  /-- OP 0x5, R145. -/
  | convert
  deriving DecidableEq, Repr

end Sys2Proof
end

