-- ==== Sys2Proof/Decode.lean ====
section
/-! DEFINITION. The command decoder (R84), total on every 32-bit word, and the encoder (R81, R82). -/

namespace Sys2Proof

/-- Why a word is ILLEGAL, in the three cases of R85. The block does not record which (R174); the names are the
model's (log entry 16). -/
inductive Illegal where
  /-- RSV, bits 15:4, is not zero. -/
  | rsvNotZero
  /-- IMM16 is not zero and OP is not PIXEL's. -/
  | immNotZero
  /-- OP is 0x6 to 0xF. -/
  | reservedOp
  deriving DecidableEq, Repr

/-- The verdict of the decoder on one word. -/
inductive Decoded where
  | ok (i : Instr)
  | illegal (why : Illegal)
  deriving DecidableEq, Repr

/-- Field OP, bits 3:0 (R81). -/
def cmdOp (c : Word) : BitVec 4 := c.extractLsb' 0 4

/-- Field RSV, bits 15:4 (R81). -/
def cmdRsv (c : Word) : BitVec 12 := c.extractLsb' 4 12

/-- Field IMM16, bits 31:16 (R81, R83). -/
def cmdImm (c : Word) : Half := c.extractLsb' 16 16

/-- `decode` of R84, in the order of its pseudocode. -/
def decode (c : Word) : Decoded :=
  if cmdRsv c ≠ 0 then .illegal .rsvNotZero
  else if cmdOp c = 0x1 then .ok (.pixel (cmdImm c))
  else if cmdImm c ≠ 0 then .illegal .immNotZero
  else if cmdOp c = 0x0 then .ok .nop
  else if cmdOp c = 0x2 then .ok .decode
  else if cmdOp c = 0x3 then .ok .rot270
  else if cmdOp c = 0x4 then .ok .hflip
  else if cmdOp c = 0x5 then .ok .convert
  else .illegal .reservedOp

/-- A word of format CMD32 with RSV = 0: IMM16 ++ 0 ++ OP (R81). -/
def cmdWord (imm : Half) (op : BitVec 4) : Word := imm ++ (0 : BitVec 12) ++ op

/-- The one word of a command (R82). -/
def encode : Instr → Word
  | .nop => cmdWord 0 0x0
  | .pixel imm16 => cmdWord imm16 0x1
  | .decode => cmdWord 0 0x2
  | .rot270 => cmdWord 0 0x3
  | .hflip => cmdWord 0 0x4
  | .convert => cmdWord 0 0x5

/-- The 32-bit command word of a table word: the low `nbits` bits of `w`, every bit above them zero. -/
def tableWord (nbits w : Nat) : Nat := w % 2 ^ nbits

/-- What the decoder reads from a table word. A command is one 32-bit word (R80), so a number that needs more bits is
no command. -/
def decodeTableWord (nbits w : Nat) : Option Instr :=
  if tableWord nbits w < 2 ^ 32 then
    match decode (BitVec.ofNat 32 (tableWord nbits w)) with
    | .ok i => some i
    | .illegal _ => none
  else none

end Sys2Proof
end

