-- ==== Sys2Proof/Config.lean ====
section
/-! DEFINITION. What a build of the block fixes (R6 to R10) and the free values the spec leaves open. -/

namespace Sys2Proof

/-- The two build-time parameters `W` and `H` (R6), 16 bits each as GEOM holds them (R23). Their bounds (R7)
are `Geometry.WellFormed`. -/
structure Geometry where
  W : Half
  H : Half
  deriving DecidableEq, Repr

namespace Config

/-- This instance's geometry: `W = 170`, `H = 320` (R6). -/
def geometry : Geometry := ⟨170, 320⟩

/-- FREE VALUE. The draws of R34 and D19: draw number `n` is the byte that some read of an unwritten byte returns.
It has no body, so a claim that mentions it holds for every value. `State.draws` numbers the draws, and no two
reads use one number (log entry 4). -/
opaque draw : Nat → Byte

/-- FREE VALUE. The platform parameter behind `BASE` (R9): `BASE` is this many 512 KiB windows (log entry 8). -/
opaque baseIndex : Nat

/-- `BASE`, a multiple of 0x80000 (R9). -/
def base : Nat := baseIndex * 0x80000

/-- FREE VALUE. The latency of the write of a command word to CMD (R10, D28): finite, and no rule depends on it
(R202), so no definition of the model reads it (log entry 8). -/
opaque latency : Word → Nat

end Config

end Sys2Proof
end

