-- ==== Sys2Proof/Machine/Bus.lean ====
section
/-! DEFINITION. The host's side of the port: transactions, responses and the events a host can cause (R150, R151,
R190, R191). Types only. -/

namespace Sys2Proof.Machine

/-- The `we` signal: a read or a write (R151). -/
inductive Kind where
  | read
  | write
  deriving DecidableEq, Repr

/-- A transaction as the port carries it (R150, R151): `size` is the two-bit code (0, 1, 2 for 1, 2, 4 bytes; 3 is
reserved), `addr` the byte offset from `BASE`, `wdata` the write value (ignored on a read). -/
structure Txn where
  kind  : Kind
  addr  : BitVec 19
  size  : BitVec 2
  wdata : Word
  deriving DecidableEq, Repr

/-- The response to a transaction (R151): `ok r` (with `r = 0` for a write) or a bus error, which carries no value
(R176). -/
inductive Response where
  | ok (r : Word)
  | buserr
  deriving DecidableEq, Repr

/-- What the outside world does to the block, one event after another (R158). -/
inductive Event where
  /-- The host issues a transaction and it runs to its completion (R142). -/
  | txn (t : Txn)
  /-- `rst` is asserted and released while no command runs (R190). -/
  | reset
  /-- The host writes word `c` to CMD and `rst` is asserted while that command runs (R191). -/
  | resetDuringCmd (c : Word)
  deriving DecidableEq, Repr

/-- The six control registers (R22). -/
inductive Reg where
  | geom | cmd | status | len | pixout | rdim
  deriving DecidableEq, Repr

/-- A raster pixel: the triple (R8, G8, B8) of R15. -/
structure Pixel where
  r : Byte
  g : Byte
  b : Byte
  deriving DecidableEq, Repr, Inhabited

end Sys2Proof.Machine
end

