-- ==== Sys2Proof/Machine/State.lean ====
section
/-! DEFINITION. The state of the block (R38), what a run records beside it, and the state after reset (R37). -/

namespace Sys2Proof.Machine

/-- A fault of a run. It is RECORDED in `State.faults` and the machine goes on (R177, R159); no step of this block
ends in a fault (log entry 5). -/
inductive Fault where
  /-- Transaction `t` was a bus error (R176). Recorded by `busError` (Machine/Ops.lean) for every transaction that
  `target` (Machine/HostBus.lean) finds illegal. SAFE: a claim about a run needs "no fault" as a premise (D24). -/
  | busError (t : Txn)
  deriving DecidableEq, Repr

/-- Why a step has no meaning. -/
inductive Refusal where
  /-- An instruction that the model gives no meaning. Raised by no arm of `exec`: every command is modelled. SAFE. -/
  | notModelled (mnemonic : String)
  deriving DecidableEq, Repr

/-- A buffer's written bytes, as (offset, byte) pairs; its canonical form is `Memory.wf` (Machine/Ops.lean). -/
abbrev Memory := List Host.Cell

/-- The block's record of R38 with its geometry, and the four fields that are the model's own. -/
structure State where
  /-- GEOM: the build's `W` and `H`, hardwired (R23); no step changes it (log entry 1). -/
  geom : Geometry
  /-- LEN (R27). -/
  len : Word
  /-- PIXOUT[23:0] (R28); bits 31:24 read as 0. -/
  pixout : BitVec 24
  /-- STATUS.RV (R25). -/
  rv : Bool
  /-- STATUS.ERR (R25). -/
  err : Bool
  /-- STATUS.ECODE (R25, R170). -/
  ecode : BitVec 4
  /-- RDIM.CW (R29). -/
  cw : Half
  /-- RDIM.CH (R29). -/
  ch : Half
  /-- IBUF (R31): the written bytes, by IBUF offset. -/
  ibuf : Memory
  /-- RAST (R32): the written bytes, by RAST offset. -/
  rast : Memory
  /-- THE MODEL'S OWN: the events still to come, next one first (log entry 2). -/
  host : List Event
  /-- THE MODEL'S OWN: the responses given so far, oldest first (R203). -/
  responses : List Response
  /-- THE MODEL'S OWN: the bus errors of the run, oldest first, never cleared (R177). -/
  faults : List Fault
  /-- THE MODEL'S OWN: the number of the next draw (R34, log entry 4). -/
  draws : Nat
  deriving DecidableEq, Repr

/-- The state after reset (R37) of a build with geometry `g`, with nothing issued and nothing observed. -/
def State.resetOf (g : Geometry) : State where
  geom := g
  len := 0
  pixout := 0
  rv := false
  err := false
  ecode := 0
  cw := 0
  ch := 0
  ibuf := []
  rast := []
  host := []
  responses := []
  faults := []
  draws := 0

/-- The state after reset of this instance, 170 by 320 (R6, R37). -/
def State.reset : State := State.resetOf Config.geometry

end Sys2Proof.Machine
end

