-- ==== Sys2Proof/Machine/Ops.lean ====
section
/-! DEFINITION. The shared operations: sizes of the buffers, reading and writing their bytes, raster pixels, the
response to a transaction, the two kinds of error, and reset. -/

namespace Sys2Proof.Machine

/-! ### Derived constants (R8) and the host address (R9) -/

/-- `NPIX = W * H` (R8). -/
def npix (g : Geometry) : Nat := g.W.toNat * g.H.toNat

/-- `IBYTES = 2 * NPIX` (R8). -/
def ibytes (g : Geometry) : Nat := 2 * npix g

/-- `RBYTES = 3 * NPIX` (R8). -/
def rbytes (g : Geometry) : Nat := 3 * npix g

/-- `GEOM_VAL = (H << 16) | W` (R8). -/
def geomVal (g : Geometry) : Word := g.H ++ g.W

/-- The port's byte offset for a host-bus address, where the address lies in the block's 512 KiB window (R50);
addresses outside it belong to the platform. -/
def windowOffset (hostAddr : Nat) : Option (BitVec 19) :=
  if Config.base ≤ hostAddr ∧ hostAddr < Config.base + 0x80000 then
    some (BitVec.ofNat 19 (hostAddr - Config.base))
  else none

/-! ### The bytes of a buffer (R34, R53) -/

/-- What an unlisted offset reads as: no value, the byte is unwritten (R34, log entry 15). -/
def memUnlisted : Option Byte := none

/-- The content of one byte: what was written last, or `none` when it is unwritten (R34). -/
def memGet (m : Memory) (a : Nat) : Option Byte := (m.lookup a).or memUnlisted

/-- The canonical form of a buffer: offsets strictly rising, and no cell that holds what an unlisted offset reads
as. A written byte is never `memUnlisted`, so the second half holds of every list. -/
abbrev Memory.wf (m : Memory) : Prop := m.Pairwise (fun p q => p.1 < q.1)

/-- Every written byte lies inside a buffer of `size` bytes (R31, R32). -/
abbrev Memory.within (m : Memory) (size : Nat) : Prop := ∀ c ∈ m, c.1 < size

/-- Write one byte, keeping the offsets rising. -/
def memPut : Memory → Nat → Byte → Memory
  | [], a, b => [(a, b)]
  | c :: rest, a, b =>
    if a < c.1 then (a, b) :: c :: rest
    else if a = c.1 then (a, b) :: rest
    else c :: memPut rest a b

/-- Write the bytes `bs` at offsets `a`, `a + 1`, .... -/
def memPutBytes : Memory → Nat → List Byte → Memory
  | m, _, [] => m
  | m, a, b :: bs => memPutBytes (memPut m a b) (a + 1) bs

/-- Read one byte; `d` numbers the draw that an unwritten byte returns (R34). -/
def readByte (m : Memory) (a d : Nat) : Byte := (memGet m a).getD (Config.draw d)

/-- The little-endian value of at most four bytes, the first one lowest (R53). -/
def leWord : List Byte → Word
  | [] => 0
  | b :: bs => (leWord bs <<< 8) ||| b.setWidth 32

/-- The bytes `v[8k+7:8k]` for `k` in `[0, n)` (R13). -/
def leBytes (v : Word) (n : Nat) : List Byte := (List.range n).map fun k => v.extractLsb' (8 * k) 8

/-- `MemRead(S, a, n)` (R13): `n` bytes from offset `a`, little-endian, zero-extended (R53). The byte at `a + k`, if
unwritten, is draw number `d + k`. -/
def memRead (m : Memory) (a n d : Nat) : Word :=
  leWord ((List.range n).map fun k => readByte m (a + k) (d + k))

/-- `MemWrite(S, a, n, v)` (R13): `S[a+k] <- v[8k+7:8k]`; the high bits of `v` are ignored (R53). -/
def memWrite (m : Memory) (a n : Nat) (v : Word) : Memory := memPutBytes m a (leBytes v n)

/-! ### Raster pixels (R13, R33) -/

/-- `Px(k)`: bytes `3k`, `3k+1`, `3k+2` as (R8, G8, B8) (R13, R33). Draw number `d + a` stands for an unwritten byte
at offset `a`. -/
def readPixel (m : Memory) (k d : Nat) : Pixel where
  r := readByte m (3 * k) (d + 3 * k)
  g := readByte m (3 * k + 1) (d + 3 * k + 1)
  b := readByte m (3 * k + 2) (d + 3 * k + 2)

/-- The snapshot of `Px(0) .. Px(n-1)` that ROT270 and HFLIP take (R121, R124). -/
def readPixels (m : Memory) (n d : Nat) : Array Pixel := ((List.range n).map fun k => readPixel m k d).toArray

/-- The cells of pixels `ps`, stored as raster pixels 0, 1, ... (R33). -/
def pixelCells (ps : List Pixel) : Memory :=
  ps.zipIdx.flatMap fun p => [(3 * p.2, p.1.r), (3 * p.2 + 1, p.1.g), (3 * p.2 + 2, p.1.b)]

/-- `Px(k) <- ps[k]` for every `k` below the length of `ps`; the bytes above them are kept. Each iteration of the
loops of R106, R121 and R124 writes a distinct pixel from a snapshot (R13), so all of them together are this one
write (log entry 9). -/
def putPixels (m : Memory) (ps : List Pixel) : Memory :=
  pixelCells ps ++ m.filter fun c => decide (3 * ps.length ≤ c.1)

/-! ### Ending a transaction (R151, R172, R176) -/

/-- Answer the current transaction with `r`. -/
def respond (r : Response) (s : State) : State := { s with responses := s.responses ++ [r] }

/-- A bus error: answer `buserr`, change no state of the block (R176), and record the fault of the run (R177). -/
def busError (t : Txn) (s : State) : State :=
  { s with responses := s.responses ++ [.buserr], faults := s.faults ++ [.busError t] }

/-- The error codes of R170 that the block records. -/
inductive CmdErrorCode where
  | sizeMismatch
  | illegalCmd
  | notReady
  deriving DecidableEq, Repr

/-- The code in STATUS.ECODE (R170). -/
def ecodeOf : CmdErrorCode → BitVec 4
  | .sizeMismatch => 1
  | .illegalCmd => 2
  | .notReady => 3

/-- `raise CmdError(code)` of R172: record the code if no error is recorded yet. The command ends there, and the
host's CMD write completes with `ok(0)`, which the bus operation adds (`writeReg`, Machine/HostBus.lean). -/
def raiseCmdError (code : CmdErrorCode) (s : State) : State :=
  if s.err = false then { s with err := true, ecode := ecodeOf code } else s

/-- `rst` (R190): the block's state is that of R37 and GEOM is unchanged. What the run has observed, the events still
to come and the numbering of draws are not the block's and stay (log entry 6). -/
def applyReset (s : State) : State :=
  { State.resetOf s.geom with
    host := s.host, responses := s.responses, faults := s.faults, draws := s.draws }

/-- Continue with `f` from a next state; a fault or a refusal passes through. -/
def onNext (f : State → State) : Host.Outcome State Fault Refusal → Host.Outcome State Fault Refusal
  | .next s => .next (f s)
  | .fault r => .fault r
  | .refused r => .refused r

end Sys2Proof.Machine
end

