-- ==== Sys2Proof/Machine/Operands.lean ====
section
/-! DEFINITION. The operands of the commands: the colour expansion, the pixel words of IBUF, and where a raster pixel
comes from under the two transforms. -/

namespace Sys2Proof.Machine

/-- `DEC565` (R100): `(w[15:11] << 3, w[10:5] << 2, w[4:0] << 3)`, with zeros shifted in (R101). -/
def dec565 (w : Half) : Pixel where
  r := ((w >>> 11) &&& 0x1F).setWidth 8 <<< 3
  g := ((w >>> 5) &&& 0x3F).setWidth 8 <<< 2
  b := (w &&& 0x1F).setWidth 8 <<< 3

/-- The 24 bits `r8 ++ g8 ++ b8` that PIXEL puts in PIXOUT (R103, R28). -/
def pixelBits (p : Pixel) : BitVec 24 := p.r ++ p.g ++ p.b

/-- Pixel word `i` of IBUF, `MemRead(IBUF, 2*i, 2)` (R52, R105). Draw number `d + a` stands for an unwritten byte at
offset `a`. -/
def ibufWord (m : Memory) (i d : Nat) : Half := (memRead m (2 * i) 2 (d + 2 * i)).setWidth 16

/-- The raster pixels that DECODE writes: pixel `i` is `DEC565` of word `i`, in the same order (R106, R108). -/
def decodedPixels (m : Memory) (n d : Nat) : List Pixel := (List.range n).map fun i => dec565 (ibufWord m i d)

/-- The size check of DECODE and CONVERT passes (R107): the length is even and the pixel count is `W * H`. -/
def sizeOk (g : Geometry) (len : Word) : Bool := len.toNat % 2 = 0 && len.toNat = 2 * g.W.toNat * g.H.toNat

/-- The input pixel that ROT270 moves to output pixel `k` (R121): with `y2 = k div ch` and `x2 = k mod ch`, it is
`x2*cw + (cw - 1 - y2)`. -/
def rotSource (cw ch k : Nat) : Nat := k % ch * cw + (cw - 1 - k / ch)

/-- The input pixel that HFLIP moves to output pixel `k` (R124): with `y = k div cw` and `x = k mod cw`, it is
`y*cw + (cw - 1 - x)`. -/
def flipSource (cw k : Nat) : Nat := k / cw * cw + (cw - 1 - k % cw)

/-- The `n` pixels of a transformed raster: pixel `k` is pixel `source k` of the snapshot `T`. -/
def movedPixels (source : Nat → Nat) (n : Nat) (T : Array Pixel) : List Pixel :=
  (List.range n).map fun k => T.getD (source k) default

end Sys2Proof.Machine
end

