-- ==== Sys2Proof/Machine/Flags.lean ====
section
/-! DEFINITION. The status register and the other control registers as words: what a read gives (R153) and what the
flags become (R26, R30). -/

namespace Sys2Proof.Machine

/-- STATUS as a word: `(ECODE << 4) | (ERR << 1) | RV` (R153); the reserved bits are 0 (R25). -/
def statusWord (s : State) : Word :=
  (s.ecode.setWidth 32 <<< 4) ||| ((BitVec.ofBool s.err).setWidth 32 <<< 1) ||| (BitVec.ofBool s.rv).setWidth 32

/-- RDIM as a word: `(CH << 16) | CW` (R153). -/
def rdimWord (s : State) : Word := s.ch ++ s.cw

/-- The value a read of a control register gives (R153). -/
def readReg (s : State) : Reg → Word
  | .geom => geomVal s.geom
  | .cmd => 0
  | .status => statusWord s
  | .len => s.len
  | .pixout => s.pixout.setWidth 32
  | .rdim => rdimWord s

/-- A host write of `v` to STATUS (R26): ERR and ECODE are cleared when bit 1 is set, and nothing else happens. -/
def writeStatus (v : Word) (s : State) : State :=
  if v.getLsbD 1 = true then { s with err := false, ecode := 0 } else s

/-- A raster of width `cw` and height `ch` is valid (R30, R29). -/
def setRaster (cw ch : Half) (s : State) : State := { s with rv := true, cw := cw, ch := ch }

/-- No raster is valid, and RDIM is 0 (R106). -/
def clearRaster (s : State) : State := { s with rv := false, cw := 0, ch := 0 }

end Sys2Proof.Machine
end

