-- ==== Sys2Proof/Machine/Pixel.lean ====
section
/-! DEFINITION. The commands of 40_decoder.md: PIXEL and DECODE. -/

namespace Sys2Proof.Machine

/-- PIXEL (R103): PIXOUT <- DEC565(IMM16). No flag changes, and it cannot fail. -/
def execPixel (imm16 : Half) (s : State) : Host.Outcome State Fault Refusal :=
  .next { s with pixout := pixelBits (dec565 imm16) }

/-- The pixel loop of DECODE (R106): every RAST pixel is written, every IBUF byte read once (R62). -/
def decodeFrame (s : State) : State :=
  { s with rast := putPixels s.rast (decodedPixels s.ibuf (npix s.geom) s.draws),
           draws := s.draws + ibytes s.geom }

/-- DECODE as a function of the state (R106): the size check, then either the failure with RAST unchanged or the
decoded raster with RDIM at the build's geometry. -/
def runDecode (s : State) : State :=
  if sizeOk s.geom s.len = false then raiseCmdError .sizeMismatch (clearRaster s)
  else setRaster s.geom.W s.geom.H (decodeFrame s)

/-- DECODE (R106). -/
def execDecode (s : State) : Host.Outcome State Fault Refusal := .next (runDecode s)

end Sys2Proof.Machine
end

