-- ==== Sys2Proof/Machine/Transform.lean ====
section
/-! DEFINITION. The commands of 41_transform.md: ROT270 and HFLIP. -/

namespace Sys2Proof.Machine

/-- The pixel loop of ROT270 and HFLIP (R121, R124): pixel `k` of the current raster becomes pixel `source k` of the
snapshot. -/
def moveRaster (source : Nat → Nat) (s : State) : State :=
  let n := s.cw.toNat * s.ch.toNat
  { s with rast := putPixels s.rast (movedPixels source n (readPixels s.rast n s.draws)),
           draws := s.draws + 3 * n }

/-- ROT270 as a function of the state (R121): NOT_READY without a valid raster, else the raster turned by 90 degrees
counter-clockwise (R120) at its current dimensions (R122), which are swapped. -/
def runRot270 (s : State) : State :=
  if s.rv = false then raiseCmdError .notReady s
  else setRaster s.ch s.cw (moveRaster (rotSource s.cw.toNat s.ch.toNat) s)

/-- ROT270 (R121). -/
def execRot270 (s : State) : Host.Outcome State Fault Refusal := .next (runRot270 s)

/-- HFLIP as a function of the state (R124): NOT_READY without a valid raster, else the raster mirrored left-right
(R123) at its current dimensions, which stay. -/
def runHflip (s : State) : State :=
  if s.rv = false then raiseCmdError .notReady s
  else moveRaster (flipSource s.cw.toNat) s

/-- HFLIP (R124). -/
def execHflip (s : State) : Host.Outcome State Fault Refusal := .next (runHflip s)

end Sys2Proof.Machine
end

