-- ==== Sys2Proof/Machine/Control.lean ====
section
/-! DEFINITION. The commands of 42_pipeline_control.md: NOP and CONVERT. -/

namespace Sys2Proof.Machine

/-- NOP (R147): no state changes. -/
def execNop (s : State) : Host.Outcome State Fault Refusal := .next s

/-- CONVERT as a function of the state (R145): DECODE, and where its size check passed, ROT270 and then HFLIP, each
with its own guard, which cannot fail then. -/
def runConvert (s : State) : State :=
  if sizeOk s.geom s.len = false then runDecode s
  else runHflip (runRot270 (runDecode s))

/-- CONVERT (R145). -/
def execConvert (s : State) : Host.Outcome State Fault Refusal := .next (runConvert s)

end Sys2Proof.Machine
end

