-- ==== Sys2Proof/Machine/Dispatch.lean ====
section
/-! DEFINITION. The one dispatch from commands to their meanings (R140). -/

namespace Sys2Proof.Machine

/-- The effect of one legal command on the state (R140). The response to the CMD write is the bus's. -/
def exec (i : Instr) (s : State) : Host.Outcome State Fault Refusal :=
  match i with
  | .nop => Sys2Proof.Machine.execNop s
  | .pixel imm16 => Sys2Proof.Machine.execPixel imm16 s
  | .decode => Sys2Proof.Machine.execDecode s
  | .rot270 => Sys2Proof.Machine.execRot270 s
  | .hflip => Sys2Proof.Machine.execHflip s
  | .convert => Sys2Proof.Machine.execConvert s

end Sys2Proof.Machine
end

