-- ==== Sys2Proof/Machine/HostBus.lean ====
section
/-! DEFINITION. The host's transactions (43_host_bus.md): which are legal, what each does, and the events of reset. -/

namespace Sys2Proof.Machine

/-- The size in bytes of a size code; code 3 is reserved (R150, R151). -/
def sizeBytes (size : BitVec 2) : Option Nat :=
  if size = 0 then some 1 else if size = 1 then some 2 else if size = 2 then some 4 else none

/-- The byte offset of a register (R22). -/
def regOffset : Reg → Nat
  | .geom => 0x00
  | .cmd => 0x04
  | .status => 0x08
  | .len => 0x0C
  | .pixout => 0x10
  | .rdim => 0x14

/-- The register at a byte offset (R22); every other offset holds none. -/
def regAt (a : Nat) : Option Reg :=
  [Reg.geom, .cmd, .status, .len, .pixout, .rdim].find? fun r => regOffset r == a

/-- The offset of IBUF byte 0 (R50). -/
def ibufBase : Nat := 0x20000

/-- The offset of RAST byte 0 (R50). -/
def rastBase : Nat := 0x40000

/-- What a legal transaction acts on: a register, or `n` bytes of a buffer from buffer offset `a`. -/
inductive Target where
  | reg (r : Reg)
  | ibuf (a n : Nat)
  | rast (a n : Nat)
  deriving DecidableEq, Repr

/-- The target of a transaction of `n` bytes at offset `a`, or `none` where `legal(kind, a, n)` of R152 is false. -/
def targetAt (g : Geometry) (kind : Kind) (a n : Nat) : Option Target :=
  if a % n ≠ 0 then none
  else if n = 4 ∧ (regAt a).isSome then (regAt a).map .reg
  else if ibufBase ≤ a ∧ a - ibufBase + n ≤ ibytes g then some (.ibuf (a - ibufBase) n)
  else if kind = .read ∧ rastBase ≤ a ∧ a - rastBase + n ≤ rbytes g then some (.rast (a - rastBase) n)
  else none

/-- The target of a transaction (R152); a size code of 3 is a bus error (R151). -/
def target (g : Geometry) (t : Txn) : Option Target :=
  match sizeBytes t.size with
  | none => none
  | some n => targetAt g t.kind t.addr.toNat n

/-- A host read of `n` bytes of a buffer (R156, R157): unwritten bytes read as draws, and nothing else changes but
the numbering of draws. -/
def hostRead (m : Memory) (a n : Nat) (s : State) : State :=
  respond (.ok (memRead m a n s.draws)) { s with draws := s.draws + n }

/-- A host write of `n` bytes of IBUF (R155). -/
def hostWriteIbuf (a n : Nat) (v : Word) (s : State) : State :=
  respond (.ok 0) { s with ibuf := memWrite s.ibuf a n v }

/-- The write of word `c` to CMD (R140): an ILLEGAL word is the error ILLEGAL_CMD, every other word runs its
command. -/
def runCommand (c : Word) (s : State) : Host.Outcome State Fault Refusal :=
  match decode c with
  | .illegal _ => .next (raiseCmdError .illegalCmd s)
  | .ok i => exec i s

/-- The effect of a write of `v` to a register (R154), before its response. -/
def writeRegEffect (r : Reg) (v : Word) (s : State) : Host.Outcome State Fault Refusal :=
  match r with
  | .geom => .next s
  | .cmd => runCommand v s
  | .status => .next (writeStatus v s)
  | .len => .next { s with len := v }
  | .pixout => .next s
  | .rdim => .next s

/-- A write of `v` to a register: its effect, and the response `ok(0)` once that is complete (R142, R154). -/
def writeReg (r : Reg) (v : Word) (s : State) : Host.Outcome State Fault Refusal :=
  onNext (respond (.ok 0)) (writeRegEffect r v s)

/-- A read of a register (R153). -/
def hostReadReg (r : Reg) (s : State) : State := respond (.ok (readReg s r)) s

/-- One whole transaction (R151 to R157). -/
def transact (t : Txn) (s : State) : Host.Outcome State Fault Refusal :=
  match target s.geom t, t.kind with
  | none, _ => .next (busError t s)
  | some (.reg r), .read => .next (hostReadReg r s)
  | some (.reg r), .write => writeReg r t.wdata s
  | some (.ibuf a n), .read => .next (hostRead s.ibuf a n s)
  | some (.ibuf a n), .write => .next (hostWriteIbuf a n t.wdata s)
  | some (.rast a n), .read => .next (hostRead s.rast a n s)
  | some (.rast _ _), .write => .next (busError t s)

/-- One event. A reset during a command abandons it: the state is that of a reset and the CMD write gets no response
(R191). -/
def runEvent (e : Event) (s : State) : Host.Outcome State Fault Refusal :=
  match e with
  | .txn t => transact t s
  | .reset => .next (applyReset s)
  | .resetDuringCmd _ => .next (applyReset s)

/-- The event that is next, if any, and the state once it is taken from the queue. -/
def takeEvent (s : State) : Option (Event × State) :=
  match s.host with
  | [] => none
  | e :: rest => some (e, { s with host := rest })

/-- The aligned 32-bit write of `c` to CMD that issues a command (R80). -/
def cmdWrite (c : Word) : Txn where
  kind := .write
  addr := 0x04
  size := 2
  wdata := c

/-- Put an event at the head of the host's queue. -/
def pushEvent (e : Event) (s : State) : State := { s with host := e :: s.host }

end Sys2Proof.Machine
end

