-- ==== Sys2Proof/Machine/Step.lean ====
section
/-! DEFINITION. One step of the machine: the next event of the host, whole (R60, R158). -/

namespace Sys2Proof.Machine

/-- One step. With no event to come the block waits and nothing changes (R190: "after reset the block waits for the
host's first transaction"; log entry 2). -/
def step (s : State) : Host.Outcome State Fault Refusal :=
  match takeEvent s with
  | none => .next s
  | some (e, s') => runEvent e s'

/-- `s` with the write of a command word to CMD as the next event: commands are not fetched, the host writes them
(R66, R80; log entry 3). -/
def State.withFetchWord (s : State) (nbits w : Nat) : State :=
  pushEvent (.txn (cmdWrite (BitVec.ofNat 32 (tableWord nbits w)))) s

end Sys2Proof.Machine
end

