-- ==== Sys2Proof/WellFormed.lean ====
section
/-! DEFINITION. Which instructions, builds and assembler operands are well formed (R7, R83, R87). -/

namespace Sys2Proof

/-- The operands a command takes, as the assembler receives them: PIXEL takes one number from 0 to 0xFFFF, the
others none (R87). -/
def Instr.operands : Instr → List Nat
  | .nop => []
  | .pixel imm16 => [imm16.toNat]
  | .decode => []
  | .rot270 => []
  | .hflip => []
  | .convert => []

/-- The mnemonics of R87, as the assembler receives them before any operand is checked. -/
inductive Mnemonic where
  | NOP | PIXEL | DECODE | ROT270 | HFLIP | CONVERT
  deriving DecidableEq, Repr

/-- R87's check of a command line: PIXEL has exactly one operand and it is at most 0xFFFF; no other command has an
operand. "An operand out of range, or an operand on a command that takes none, is an assembly error". -/
def Mnemonic.operandsOk : Mnemonic → List Nat → Bool
  | .PIXEL, [w] => w ≤ 0xFFFF
  | .PIXEL, _ => false
  | .NOP, ops => ops.isEmpty
  | .DECODE, ops => ops.isEmpty
  | .ROT270, ops => ops.isEmpty
  | .HFLIP, ops => ops.isEmpty
  | .CONVERT, ops => ops.isEmpty

/-- The mnemonic of a command (R87). -/
def Instr.mnemonic : Instr → Mnemonic
  | .nop => .NOP
  | .pixel _ => .PIXEL
  | .decode => .DECODE
  | .rot270 => .ROT270
  | .hflip => .HFLIP
  | .convert => .CONVERT

/-- A command is well formed when its operands pass R87's check. The one operand is a 16-bit field (R83), so the
type of `Instr` already holds no ill-formed command; what the check refuses are operand lists that no `Instr` has. -/
def Instr.WellFormed (i : Instr) : Bool := i.mnemonic.operandsOk i.operands

/-- The bounds of R7 on a build. "A build with other values is not this block." -/
def Geometry.WellFormed (g : Geometry) : Bool :=
  1 ≤ g.W.toNat && 1 ≤ g.H.toNat && g.W.toNat * g.H.toNat ≤ 65536

end Sys2Proof
end

