-- ==== Sys2Proof/Machine/HostProgram.lean ====
section
/-! DEFINITION. Host programs as text and as lines (R87, R88), the pseudo-instructions (R89), and the transactions
they stand for. The block sees only the transactions. -/

namespace Sys2Proof.Machine

/-- The access width in a line's name: wr8, wr16, wr32, rd8, rd16, rd32 (R88). -/
inductive Width where
  | w8 | w16 | w32
  deriving DecidableEq, Repr

/-- A buffer in an address or in FILL32 (R88, R89). -/
inductive Region where
  | ibuf | rast
  deriving DecidableEq, Repr

/-- `<addr>` of R88: a register name, `IBUF+<a>` or `RAST+<a>`, or a plain offset from `BASE`. -/
inductive HostAddr where
  | reg (r : Reg)
  | buf (region : Region) (a : Nat)
  | plain (a : Nat)
  deriving DecidableEq, Repr

/-- A line of a host program: a transaction, a command (R87) or a pseudo-instruction (R88, R89). -/
inductive Line where
  | wr (w : Width) (addr : HostAddr) (v : Nat)
  | rd (w : Width) (addr : HostAddr)
  /-- `rd32 <addr> -> <v>`: a read whose expected result is `v` (test programs only, R88). No read gives a `v` of more
  than 32 bits; such a line is refused (DESIGN CHOICE, log entry 13). -/
  | rdExpect (addr : HostAddr) (v : Nat)
  | command (m : Mnemonic) (operands : List Nat)
  | clrerr
  | setlen (n : Nat)
  | putpx (i w : Nat)
  | getpx (k : Nat)
  | fill32 (region : Region) (a v n : Nat)
  deriving DecidableEq, Repr

/-! ### From lines to transactions -/

/-- The size code of a width (R150). -/
def widthCode : Width → BitVec 2
  | .w8 => 0
  | .w16 => 1
  | .w32 => 2

/-- The offset of byte 0 of a buffer (R50, R88). -/
def regionBase : Region → Nat
  | .ibuf => ibufBase
  | .rast => rastBase

/-- The byte offset of an address (R88). -/
def addrOffset : HostAddr → Nat
  | .reg r => regOffset r
  | .buf region a => regionBase region + a
  | .plain a => a

/-- One transaction, where the offset lies in the block's window and the value fits the data bus; other lines issue
no transaction of this block (log entry 13). -/
def lineTxn (kind : Kind) (w : Width) (addr : HostAddr) (v : Nat) : Option Txn :=
  if addrOffset addr < 0x80000 ∧ v < 2 ^ 32 then
    some ⟨kind, BitVec.ofNat 19 (addrOffset addr), widthCode w, BitVec.ofNat 32 v⟩
  else none

/-- The command a mnemonic and its operands stand for; none where the assembler refuses them (R87). -/
def assembleCommand (m : Mnemonic) (operands : List Nat) : Option Instr :=
  if m.operandsOk operands then
    match m with
    | .NOP => some .nop
    | .PIXEL => some (.pixel (BitVec.ofNat 16 (operands.headD 0)))
    | .DECODE => some .decode
    | .ROT270 => some .rot270
    | .HFLIP => some .hflip
    | .CONVERT => some .convert
  else none

/-- What a read gives when it gives `v`, where `v` fits the 32-bit data bus. R88 does not say what a wider expected
result means: the model has no response for it (DESIGN CHOICE, log entry 13). -/
def expectedResponse (v : Nat) : Option Response := if v < 2 ^ 32 then some (.ok (BitVec.ofNat 32 v)) else none

/-- The transactions of one line, in issue order (R87, R88, R89). A line with an offset outside the window, a value
over 32 bits or an expected result over 32 bits issues nothing (DESIGN CHOICE, log entry 13). -/
def expandLine : Line → Option (List Txn)
  | .wr w addr v => (lineTxn .write w addr v).map ([·])
  | .rd w addr => (lineTxn .read w addr 0).map ([·])
  | .rdExpect addr v => (expectedResponse v).bind fun _ => (lineTxn .read .w32 addr 0).map ([·])
  | .command m operands => (assembleCommand m operands).map fun i => [cmdWrite (encode i)]
  | .clrerr => (lineTxn .write .w32 (.reg .status) 0x00000002).map ([·])
  | .setlen n => (lineTxn .write .w32 (.reg .len) n).map ([·])
  | .putpx i w => (lineTxn .write .w16 (.buf .ibuf (2 * i)) w).map ([·])
  | .getpx k => [3 * k, 3 * k + 1, 3 * k + 2].mapM fun a => lineTxn .read .w8 (.buf .rast a) 0
  | .fill32 region a v n => (List.range n).mapM fun j => lineTxn .write .w32 (.buf region (a + 4 * j)) v

/-- The transactions of a program, in issue order (R88). -/
def expandProgram (lines : List Line) : Option (List Txn) := (lines.mapM expandLine).map List.flatten

/-- The response a line of a test program expects, if it says one (R88). A line whose expected result needs more than
32 bits expects none, for it is refused (DESIGN CHOICE, log entry 13). -/
def expected : Line → Option Response
  | .rdExpect _ v => expectedResponse v
  | _ => none

/-! ### From text to lines -/

/-- The value of one digit in a base of at most 16. -/
def digitValue (base : Nat) (c : Char) : Option Nat :=
  let v :=
    if '0' ≤ c ∧ c ≤ '9' then c.toNat - '0'.toNat
    else if 'a' ≤ c ∧ c ≤ 'f' then c.toNat - 'a'.toNat + 10
    else if 'A' ≤ c ∧ c ≤ 'F' then c.toNat - 'A'.toNat + 10
    else base
  if v < base then some v else none

/-- A non-empty run of digits. -/
def parseDigits (base : Nat) : List Char → Option Nat
  | [] => none
  | cs => cs.foldl (fun acc c => acc.bind fun n => (digitValue base c).map (base * n + ·)) (some 0)

/-- A number, decimal or `0x` hexadecimal (R88). -/
def parseNumber : List Char → Option Nat
  | '0' :: 'x' :: cs => parseDigits 16 cs
  | cs => parseDigits 10 cs

/-- The register names of R88. -/
def regNames : List (List Char × Reg) :=
  [("GEOM".toList, .geom), ("CMD".toList, .cmd), ("STATUS".toList, .status), ("LEN".toList, .len),
   ("PIXOUT".toList, .pixout), ("RDIM".toList, .rdim)]

/-- `IBUF+<a>` or `RAST+<a>` (R88). -/
def parseBuffer (cs : List Char) : Option (Region × Nat) :=
  if cs.take 5 = "IBUF+".toList then (parseNumber (cs.drop 5)).map (Region.ibuf, ·)
  else if cs.take 5 = "RAST+".toList then (parseNumber (cs.drop 5)).map (Region.rast, ·)
  else none

/-- `<addr>` of R88. -/
def parseAddr (cs : List Char) : Option HostAddr :=
  match regNames.lookup cs with
  | some r => some (.reg r)
  | none =>
    match parseBuffer cs with
    | some (region, a) => some (.buf region a)
    | none => (parseNumber cs).map .plain

/-- The mnemonics of R87. -/
def mnemonicNames : List (List Char × Mnemonic) :=
  [("NOP".toList, .NOP), ("PIXEL".toList, .PIXEL), ("DECODE".toList, .DECODE), ("ROT270".toList, .ROT270),
   ("HFLIP".toList, .HFLIP), ("CONVERT".toList, .CONVERT)]

/-- The names of the write lines (R88). -/
def writeNames : List (List Char × Width) := [("wr8".toList, .w8), ("wr16".toList, .w16), ("wr32".toList, .w32)]

/-- The names of the read lines (R88). -/
def readNames : List (List Char × Width) := [("rd8".toList, .w8), ("rd16".toList, .w16), ("rd32".toList, .w32)]

/-- The operands of a pseudo-instruction (R89). -/
def parsePseudo (name : List Char) (ws : List (List Char)) : Option Line :=
  if name = "CLRERR".toList then
    match ws with
    | [] => some .clrerr
    | _ => none
  else if name = "SETLEN".toList then
    match ws with
    | [n] => (parseNumber n).map .setlen
    | _ => none
  else if name = "PUTPX".toList then
    match ws with
    | [i, w] => (parseNumber i).bind fun i => (parseNumber w).map (.putpx i)
    | _ => none
  else if name = "GETPX".toList then
    match ws with
    | [k] => (parseNumber k).map .getpx
    | _ => none
  else if name = "FILL32".toList then
    match ws with
    | [b, v, n] =>
      (parseBuffer b).bind fun b => (parseNumber v).bind fun v => (parseNumber n).map (.fill32 b.1 b.2 v)
    | _ => none
  else none

/-- A write line's operands (R88). -/
def parseWrite (w : Width) : List (List Char) → Option Line
  | [addr, v] => (parseAddr addr).bind fun addr => (parseNumber v).map (.wr w addr)
  | _ => none

/-- A read line's operands (R88); only `rd32` has the form with an expected result. -/
def parseRead (w : Width) : List (List Char) → Option Line
  | [addr] => (parseAddr addr).map (.rd w)
  | [addr, arrow, v] =>
    if w = .w32 ∧ arrow = "->".toList then
      (parseAddr addr).bind fun addr => (parseNumber v).map (.rdExpect addr)
    else none
  | _ => none

/-- A line from its words; the first word names it (R87, R88, R89). -/
def parseWords : List (List Char) → Option Line
  | [] => none
  | name :: ws =>
    match mnemonicNames.lookup name with
    | some m => (ws.mapM parseNumber).map (.command m)
    | none =>
      match writeNames.lookup name with
      | some w => parseWrite w ws
      | none =>
        match readNames.lookup name with
        | some w => parseRead w ws
        | none => parsePseudo name ws

/-- The words of a line: `;` starts a comment (R88), and spaces, tabs and commas part words (log entry 13). -/
def lineWords (text : String) : List (List Char) :=
  ((text.toList.takeWhile (· ≠ ';')).splitOnP fun c => c = ' ' ∨ c = '\t' ∨ c = ',').filter (· ≠ [])

/-- A line from its text (R88). -/
def parseLine (text : String) : Option Line := parseWords (lineWords text)

/-- A program from the texts of its lines; a line that is empty or only a comment issues nothing. -/
def parseProgram (texts : List String) : Option (List Line) :=
  (texts.filter fun t => lineWords t ≠ []).mapM parseLine

/-- The transactions of a program's text, in issue order, or none where the assembler refuses a line (R87). -/
def assemble (texts : List String) : Option (List Txn) := (parseProgram texts).bind expandProgram

end Sys2Proof.Machine
end

