-- ==== Sys2Proof/Safety.lean ====
section
/-! DEFINITION. What claims about the machine are stated in: the invariant of the block's state, runs of host programs
and their observation (R203), and what counts as a run without fault (R177). -/

namespace Sys2Proof.Machine

/-- Every byte of RAST has been written. -/
def RasterWritten (s : State) : Prop := ∀ a, a < rbytes s.geom → (memGet s.rast a).isSome = true

/-- Every byte of IBUF has been written. -/
def InputWritten (s : State) : Prop := ∀ a, a < ibytes s.geom → (memGet s.ibuf a).isSome = true

/-- The raster dimensions are the build's or the build's swapped (R29). -/
def DimsFit (s : State) : Prop :=
  (s.cw = s.geom.W ∧ s.ch = s.geom.H) ∨ (s.cw = s.geom.H ∧ s.ch = s.geom.W)

/-- The invariant of the machine. -/
structure State.Inv (s : State) : Prop where
  /-- The build meets R7. -/
  geom : s.geom.WellFormed = true
  /-- IBUF is in canonical form and lies inside its buffer (R31). -/
  ibufForm : s.ibuf.wf
  ibufWithin : s.ibuf.within (ibytes s.geom)
  /-- RAST is in canonical form and lies inside its buffer (R32). -/
  rastForm : s.rast.wf
  rastWithin : s.rast.within (rbytes s.geom)
  /-- "`STATUS.ERR = 0` if and only if `STATUS.ECODE = 0`" (R25). -/
  errCode : s.err = false ↔ s.ecode = 0
  /-- The reserved codes 4 to 15 are never recorded (R170). -/
  codeKnown : s.ecode.toNat ≤ 3
  /-- "`STATUS.RV = 0` implies `RDIM = 0`" (R29). -/
  noRaster : s.rv = false → s.cw = 0 ∧ s.ch = 0
  /-- "`STATUS.RV = 1` implies ... `{RDIM.CW, RDIM.CH} = {W, H}`" (R29). -/
  dims : s.rv = true → DimsFit s
  /-- With RV = 1 RAST holds a result (R25): every byte of it has been written. -/
  written : s.rv = true → RasterWritten s
  /-- The run has recorded one fault for each transaction that answered `buserr` (R177). -/
  faultsCounted : s.faults.length = s.responses.countP (fun r => decide (r = .buserr))

/-- A run that has met no bus error: R177's premise of a claim about a program. -/
def State.NoFault (s : State) : Prop := s.faults = []

/-- A build of the block with a host program to run, in its reset state (R203). -/
def State.ready (g : Geometry) (program : List Txn) : State :=
  { State.resetOf g with host := program.map .txn }

/-- The run of a host program (R203): from reset until its last transaction has completed. -/
def hostRun (g : Geometry) (program : List Txn) : Host.Outcome State Fault Refusal :=
  Host.Core.run Sys2Proof.core program.length (State.ready g program)

/-- The observation of a run (R203): the responses and the final state of R38. -/
structure Observation where
  responses : List Response
  len : Word
  pixout : BitVec 24
  rv : Bool
  err : Bool
  ecode : BitVec 4
  cw : Half
  ch : Half
  ibuf : Memory
  rast : Memory
  deriving DecidableEq, Repr

/-- What a run has shown when it stands in state `s` (R203). -/
def State.observation (s : State) : Observation :=
  ⟨s.responses, s.len, s.pixout, s.rv, s.err, s.ecode, s.cw, s.ch, s.ibuf, s.rast⟩

/-- The states a build that meets R7 can come to, under any events of the host and of `rst`. -/
inductive Reachable : State → Prop where
  | start (g : Geometry) (hg : g.WellFormed = true) (es : List Event) :
      Reachable { State.resetOf g with host := es }
  | step {s t : State} : Reachable s → step s = .next t → Reachable t

/-- `legal(kind, a, n)` of R152, for a transaction of the port, with `n` the size its size code stands for (R150). -/
def Legal (g : Geometry) (t : Txn) : Prop :=
  ∃ n, ((t.size = 0 ∧ n = 1) ∨ (t.size = 1 ∧ n = 2) ∨ (t.size = 2 ∧ n = 4)) ∧ t.addr.toNat % n = 0 ∧
    ((t.addr.toNat ∈ [0x00, 0x04, 0x08, 0x0C, 0x10, 0x14] ∧ n = 4) ∨
      (0x20000 ≤ t.addr.toNat ∧ t.addr.toNat - 0x20000 + n ≤ 2 * g.W.toNat * g.H.toNat) ∨
      (t.kind = .read ∧ 0x40000 ≤ t.addr.toNat ∧ t.addr.toNat - 0x40000 + n ≤ 3 * g.W.toNat * g.H.toNat))

/-- The byte offset an `<addr>` of a host-program line stands for (R88, with the register offsets of R22). -/
def AddrMeans (addr : HostAddr) (x : Nat) : Prop :=
  (addr = .reg .geom ∧ x = 0x00) ∨ (addr = .reg .cmd ∧ x = 0x04) ∨ (addr = .reg .status ∧ x = 0x08) ∨
  (addr = .reg .len ∧ x = 0x0C) ∨ (addr = .reg .pixout ∧ x = 0x10) ∨ (addr = .reg .rdim ∧ x = 0x14) ∨
  (∃ a, addr = .buf .ibuf a ∧ x = 0x20000 + a) ∨ (∃ a, addr = .buf .rast a ∧ x = 0x40000 + a) ∨
  (∃ a, addr = .plain a ∧ x = a)

/-- The size code of a line's width: 0, 1, 2 for 1, 2, 4 bytes (R88, R150). -/
def WidthMeans (w : Width) (size : BitVec 2) : Prop :=
  (w = .w8 ∧ size = 0) ∨ (w = .w16 ∧ size = 1) ∨ (w = .w32 ∧ size = 2)

/-- Every word with operation `op` and RSV or IMM16 not zero is ILLEGAL (R85): the shape of every command but
PIXEL. -/
def ReservedFieldsIllegal (op : BitVec 4) : Prop :=
  ∀ c : Word, c.extractLsb' 0 4 = op → (c.extractLsb' 4 12 ≠ 0 ∨ c.extractLsb' 16 16 ≠ 0) →
    ∃ why, decode c = .illegal why

/-- The byte a read finds at offset `a` (R34): the byte written, or else draw number `d`. -/
def ReadsAs (m : Memory) (a d : Nat) (b : Byte) : Prop :=
  (∀ w, memGet m a = some w → b = w) ∧ (memGet m a = none → b = Config.draw d)

/-- The three bytes of raster pixel `k` (R33): R8, G8, B8, each `none` where it is unwritten. -/
def pixelAt (s : State) (k : Nat) : Option Byte × Option Byte × Option Byte :=
  (memGet s.rast (3 * k), memGet s.rast (3 * k + 1), memGet s.rast (3 * k + 2))

/-- A pixel's three bytes, all written. -/
def writtenPixel (p : Pixel) : Option Byte × Option Byte × Option Byte := (some p.r, some p.g, some p.b)

end Sys2Proof.Machine
end

