-- ==== Sys2Proof/Certificates/Slice0/Obligations.lean ====
section
/-! DEFINITION. The statements about the block, from the numbered rules of spec/. `{ s with ... }` on the right of an
equation is the frame: every field not named is unchanged. Where a field is given as `t.rast` or `t.ibuf`, the clauses
that follow say what its bytes are. `draws` is the model's own counter (log entry 4): DecodeCommand, Rot270Command,
HflipCommand, ConvertClosedForm, InputRead and RasterRead say how far each read of a buffer advances it. A law that gives
`draws := u.draws`, and NoReadHasASideEffect, say only that nothing else differs. -/

open Sys2Proof Sys2Proof.Machine

/-! ### Reset, the invariant and the step -/

/-- R37: the complete reset state, of this instance. -/
def Obligations.ResetStateValues : Prop :=
  geomVal State.reset.geom = 0x014000AA ∧ State.reset.rv = false ∧ State.reset.err = false ∧
    State.reset.ecode = 0 ∧ statusWord State.reset = 0 ∧ State.reset.len = 0 ∧ State.reset.pixout = 0 ∧
    rdimWord State.reset = 0 ∧ ∀ a, memGet State.reset.ibuf a = none ∧ memGet State.reset.rast a = none

/-- The invariant holds after reset, in this instance and in every build that R7 permits, whatever the host is about
to do. -/
def Obligations.ResetMeetsInv : Prop :=
  State.reset.Inv ∧
    ∀ g : Geometry, g.WellFormed = true → ∀ es, ({ State.resetOf g with host := es } : State).Inv

/-- Every step keeps the invariant: the geometry and the two buffers in form, ERR = 0 iff ECODE = 0 (R25), no reserved
code (R170), RDIM as R29 says, and with RV = 1 a raster written in full. -/
def Obligations.StepKeepsInv : Prop := ∀ s t : State, s.Inv → step s = .next t → t.Inv

/-- Every state that a build within R7 can come to, under any transactions and resets, meets the invariant. -/
def Obligations.ReachableStatesMeetInv : Prop := ∀ s : State, Reachable s → s.Inv

/-- R140: a write of `c` to CMD runs exactly one command, or raises ILLEGAL_CMD, and then completes with `ok(0)`. -/
def Obligations.CmdWriteRunsDecodedCommand : Prop :=
  ∀ (s : State) (c : Word) (rest : List Event), s.host = .txn (cmdWrite c) :: rest →
    (∀ i, decode c = .ok i → step s = onNext (respond (.ok 0)) (exec i { s with host := rest })) ∧
    (∀ why, decode c = .illegal why →
      step s = .next (respond (.ok 0) (raiseCmdError .illegalCmd { s with host := rest })))

/-- A command placed by `withFetchWord` is what the next step runs, on the state it was placed in. -/
def Obligations.PlacedCommandIsRun : Prop :=
  ∀ (s : State) (w : Nat) (i : Instr), decodeTableWord 32 w = some i →
    step (s.withFetchWord 32 w) = onNext (respond (.ok 0)) (exec i s)

/-- R158, R159: nothing the host does can leave the block stuck. Every step answers a next state; it completes the one
event that is first, and a transaction gets exactly one response. With no event to come the block waits and holds its
state (R190, R186): the step changes nothing. The queue is the model's (log entry 2). -/
def Obligations.EveryStepCompletesOneEvent : Prop :=
  (∀ s : State, ∃ t, step s = .next t ∧ t.host = s.host.tail ∧
    ∀ x rest, s.host = .txn x :: rest → ∃ r, t.responses = s.responses ++ [r]) ∧
  (∀ s : State, s.host = [] → step s = .next s)

/-- R203: the run of a host program from reset ends, with one response for each of its transactions, and carries a
fault exactly when one of them was a bus error. -/
def Obligations.EveryHostProgramRunsToItsEnd : Prop :=
  ∀ (g : Geometry) (program : List Txn), ∃ t, hostRun g program = .next t ∧ t.host = [] ∧
    t.responses.length = program.length ∧ (t.NoFault ↔ Response.buserr ∉ t.responses)

/-! ### Encoding -/

/-- Every command's word decodes to the command, by the decoder and through the opcode table's numbering of bits. -/
def Obligations.DecodeOfEncode : Prop :=
  ∀ i : Instr, i.WellFormed = true → decode (encode i) = .ok i ∧ decodeTableWord 32 (encode i).toNat = some i

/-- R82: each legal command has exactly one encoding (PIXEL one per IMM16). -/
def Obligations.EncodeOfDecode : Prop := ∀ (c : Word) (i : Instr), decode c = .ok i → encode i = c

/-- R85: which words are ILLEGAL, and what writing one to CMD does. -/
def Obligations.IllegalWordsExactly : Prop :=
  (∀ c : Word, (∃ why, decode c = .illegal why) ↔
    (6 ≤ (c.extractLsb' 0 4).toNat ∨ c.extractLsb' 4 12 ≠ 0 ∨ (c.extractLsb' 16 16 ≠ 0 ∧ c.extractLsb' 0 4 ≠ 1))) ∧
  (∀ (s : State) (c : Word) (why : Illegal) (rest : List Event), decode c = .illegal why →
    s.host = .txn (cmdWrite c) :: rest →
    step s = .next { s with
      host := rest, err := true, ecode := if s.err = true then s.ecode else 2,
      responses := s.responses ++ [.ok 0] })

/-- Words written out from R82 and the table B2 of the test vectors, and what they decode to. -/
def Obligations.DecodeSampleWords : Prop :=
  decode 0b00000000000000000000000000000000#32 = .ok .nop ∧
  decode 0b11111000000000000000000000000001#32 = .ok (.pixel 0xF800) ∧
  decode 0b00000000000000000000000000000010#32 = .ok .decode ∧
  decode 0b00000000000000000000000000000011#32 = .ok .rot270 ∧
  decode 0b00000000000000000000000000000100#32 = .ok .hflip ∧
  decode 0b00000000000000000000000000000101#32 = .ok .convert ∧
  decode 0x0000000F#32 = .illegal .reservedOp ∧ decode 0x00000011#32 = .illegal .rsvNotZero ∧
  decode 0x00010002#32 = .illegal .immNotZero

/-! ### The colour expansion, PIXEL and NOP -/

/-- R100, R101: each channel of DEC565 is its field with zeros below it, so nothing is rounded or rescaled. -/
def Obligations.Dec565IsAShiftOfEachField : Prop :=
  (∀ w : Half, (dec565 w).r = w.extractLsb' 11 5 ++ 0#3 ∧ (dec565 w).g = w.extractLsb' 5 6 ++ 0#2 ∧
    (dec565 w).b = w.extractLsb' 0 5 ++ 0#3) ∧
  dec565 0xFFFF = ⟨248, 252, 248⟩ ∧ dec565 0x0000 = ⟨0, 0, 0⟩

/-- R102: no shift overflows, and the word is recovered from the triple. -/
def Obligations.Dec565LosesNoBit : Prop :=
  (∀ w : Half, (dec565 w).r.toNat = (w.toNat / 2 ^ 11) * 8 ∧ (dec565 w).g.toNat = (w.toNat / 2 ^ 5 % 64) * 4 ∧
    (dec565 w).b.toNat = (w.toNat % 32) * 8 ∧
    (dec565 w).r.toNat ≤ 248 ∧ (dec565 w).g.toNat ≤ 252 ∧ (dec565 w).b.toNat ≤ 248 ∧
    w = (((dec565 w).r >>> 3).setWidth 16 <<< 11) ||| (((dec565 w).g >>> 2).setWidth 16 <<< 5) |||
      ((dec565 w).b >>> 3).setWidth 16) ∧
  (∀ w w' : Half, dec565 w = dec565 w' → w = w')

/-- R103: PIXEL's encoding, and its one effect, on every state and operand. -/
def Obligations.PixelCommand : Prop :=
  (∀ w : Half, decode (w ++ 0x0001#16) = .ok (.pixel w)) ∧
  (∀ c : Word, c.extractLsb' 0 4 = 1 → c.extractLsb' 4 12 ≠ 0 → ∃ why, decode c = .illegal why) ∧
  (∀ (w : Half) (s : State), exec (.pixel w) s =
    .next { s with pixout := (dec565 w).r ++ (dec565 w).g ++ (dec565 w).b }) ∧
  (∀ s : State, exec (.pixel 0xF800) s = .next { s with pixout := 0xF80000 } ∧
    exec (.pixel 0x0000) s = .next { s with pixout := 0 } ∧ exec (.pixel 0xFFFF) s = .next { s with pixout := 0xF8FCF8 })

/-- R147: NOP's encoding, and that it changes no state. -/
def Obligations.NopCommand : Prop :=
  decode 0x00000000#32 = .ok .nop ∧ ReservedFieldsIllegal 0x0 ∧ ∀ s : State, exec .nop s = .next s

/-! ### DECODE -/

/-- R106: DECODE's encoding, its success and its failure, on every state. A success uses one draw number for each of
the `2*W*H` bytes it reads, so no later read shares one (R34); the numbering is the model's (log entry 4). -/
def Obligations.DecodeCommand : Prop :=
  decode 0x00000002#32 = .ok .decode ∧ ReservedFieldsIllegal 0x2 ∧
  (∀ s : State, (s.len.toNat % 2 ≠ 0 ∨ s.len.toNat ≠ 2 * s.geom.W.toNat * s.geom.H.toNat) →
    exec .decode s = .next { s with
      rv := false, cw := 0, ch := 0, err := true, ecode := if s.err = true then s.ecode else 1 }) ∧
  (∀ s : State, s.len.toNat % 2 = 0 → s.len.toNat = 2 * s.geom.W.toNat * s.geom.H.toNat →
    ∃ t, exec .decode s = .next t ∧
      t = { s with
        rv := true, cw := s.geom.W, ch := s.geom.H, rast := t.rast,
        draws := s.draws + 2 * (s.geom.W.toNat * s.geom.H.toNat) } ∧
      (∀ i, i < s.geom.W.toNat * s.geom.H.toNat →
        pixelAt t i = writtenPixel (dec565 (ibufWord s.ibuf i s.draws))) ∧
      (∀ a, 3 * (s.geom.W.toNat * s.geom.H.toNat) ≤ a → memGet t.rast a = memGet s.rast a))

/-- R107: the size check fails exactly for a length other than 2*W*H, odd, short or long, and then no byte of RAST is
written; DECODE and CONVERT both say SIZE_MISMATCH if no error was recorded before. -/
def Obligations.SizeMismatchWritesNoPixel : Prop :=
  ∀ s : State,
    ((s.len.toNat % 2 ≠ 0 ∨ s.len.toNat / 2 ≠ s.geom.W.toNat * s.geom.H.toNat) ↔
      s.len.toNat ≠ 2 * s.geom.W.toNat * s.geom.H.toNat) ∧
    ((s.len.toNat % 2 ≠ 0 ∨ s.len.toNat / 2 ≠ s.geom.W.toNat * s.geom.H.toNat) →
      ∀ i, i = .decode ∨ i = .convert → ∃ t, exec i s = .next t ∧ t.rast = s.rast ∧ t.err = true ∧
        (s.err = false → t.ecode = 1))

/-- R52, R105: pixel word `i` is little-endian, the byte at `2i` low. R34, R109: a byte that nothing has written reads
as a draw. Which draw numbers the two bytes take, `d + 2i` and `d + 2i + 1`, is the model's numbering (log entry 4). -/
def Obligations.PixelWordIsLittleEndian : Prop :=
  ∀ (m : Memory) (i d : Nat) (lo hi : Byte), ReadsAs m (2 * i) (d + 2 * i) lo →
    ReadsAs m (2 * i + 1) (d + 2 * i + 1) hi → ibufWord m i d = hi ++ lo

/-- R101 for pixels decoded from unwritten bytes (I17): after a successful DECODE the low bits of every channel are 0,
whatever was drawn. -/
def Obligations.DecodedChannelsHaveLowBitsZero : Prop :=
  ∀ s t : State, s.len.toNat = 2 * s.geom.W.toNat * s.geom.H.toNat → exec .decode s = .next t →
    ∀ i, i < s.geom.W.toNat * s.geom.H.toNat → ∃ p : Pixel, pixelAt t i = writtenPixel p ∧
      p.r.extractLsb' 0 3 = 0 ∧ p.g.extractLsb' 0 2 = 0 ∧ p.b.extractLsb' 0 3 = 0

/-! ### ROT270 and HFLIP -/

/-- R121: ROT270's encoding, its failure and its effect, on every state. The effect uses one draw number for each of
the `3*cw*ch` bytes of the snapshot (R34); the numbering is the model's (log entry 4). -/
def Obligations.Rot270Command : Prop :=
  decode 0x00000003#32 = .ok .rot270 ∧ ReservedFieldsIllegal 0x3 ∧
  (∀ s : State, s.rv = false → exec .rot270 s = .next { s with
    err := true, ecode := if s.err = true then s.ecode else 3 }) ∧
  (∀ s : State, s.rv = true → ∃ t, exec .rot270 s = .next t ∧
    t = { s with
      cw := s.ch, ch := s.cw, rast := t.rast, draws := s.draws + 3 * (s.cw.toNat * s.ch.toNat) } ∧
    (∀ y2 x2, y2 < s.cw.toNat → x2 < s.ch.toNat → pixelAt t (y2 * s.ch.toNat + x2) =
      writtenPixel (readPixel s.rast (x2 * s.cw.toNat + (s.cw.toNat - 1 - y2)) s.draws)) ∧
    (∀ a, 3 * (s.cw.toNat * s.ch.toNat) ≤ a → memGet t.rast a = memGet s.rast a))

/-- R124: HFLIP's encoding, its failure and its effect, on every state. The effect uses one draw number for each of
the `3*cw*ch` bytes of the snapshot (R34); the numbering is the model's (log entry 4). -/
def Obligations.HflipCommand : Prop :=
  decode 0x00000004#32 = .ok .hflip ∧ ReservedFieldsIllegal 0x4 ∧
  (∀ s : State, s.rv = false → exec .hflip s = .next { s with
    err := true, ecode := if s.err = true then s.ecode else 3 }) ∧
  (∀ s : State, s.rv = true → ∃ t, exec .hflip s = .next t ∧
    t = { s with rast := t.rast, draws := s.draws + 3 * (s.cw.toNat * s.ch.toNat) } ∧
    (∀ y x, y < s.ch.toNat → x < s.cw.toNat → pixelAt t (y * s.cw.toNat + x) =
      writtenPixel (readPixel s.rast (y * s.cw.toNat + (s.cw.toNat - 1 - x)) s.draws)) ∧
    (∀ a, 3 * (s.cw.toNat * s.ch.toNat) ≤ a → memGet t.rast a = memGet s.rast a))

/-- On a raster that is valid, ROT270 and HFLIP move whole written pixels: no draw enters, and the pixel the host reads
afterwards is the one it could read before, in its new place (R120, R123). -/
def Obligations.TransformsMoveWrittenPixels : Prop :=
  ∀ s : State, s.Inv → s.rv = true →
    (∃ t, exec .rot270 s = .next t ∧ ∀ x y, x < s.cw.toNat → y < s.ch.toNat →
      pixelAt t ((s.cw.toNat - 1 - x) * s.ch.toNat + y) = pixelAt s (y * s.cw.toNat + x)) ∧
    (∃ t, exec .hflip s = .next t ∧ ∀ x y, x < s.cw.toNat → y < s.ch.toNat →
      pixelAt t (y * s.cw.toNat + (s.cw.toNat - 1 - x)) = pixelAt s (y * s.cw.toNat + x))

/-- R125: rotate, then mirror, is the reflection about the anti-diagonal. -/
def Obligations.RotateThenMirrorIsAntiTranspose : Prop :=
  ∀ s : State, s.Inv → s.rv = true → ∃ t u, exec .rot270 s = .next t ∧ exec .hflip t = .next u ∧
    u.cw = s.ch ∧ u.ch = s.cw ∧
    ∀ x2 y2, x2 < s.ch.toNat → y2 < s.cw.toNat → pixelAt u (y2 * s.ch.toNat + x2) =
      pixelAt s ((s.ch.toNat - 1 - x2) * s.cw.toNat + (s.cw.toNat - 1 - y2))

/-- R126, law 5: mirror, then rotate, is the transpose. -/
def Obligations.MirrorThenRotateIsTranspose : Prop :=
  ∀ s : State, s.Inv → s.rv = true → ∃ t u, exec .hflip s = .next t ∧ exec .rot270 t = .next u ∧
    u.cw = s.ch ∧ u.ch = s.cw ∧
    ∀ x y, x < s.cw.toNat → y < s.ch.toNat → pixelAt u (x * s.ch.toNat + y) = pixelAt s (y * s.cw.toNat + x)

/-- R126, law 1: two mirrors restore the raster, and everything else. -/
def Obligations.MirrorTwiceIsIdentity : Prop :=
  ∀ s : State, s.Inv → s.rv = true → ∃ t u, exec .hflip s = .next t ∧ exec .hflip t = .next u ∧
    u = { s with draws := u.draws }

/-- R126, laws 2 and 3: two rotations turn the raster by 180 degrees, and four restore it and everything else. -/
def Obligations.FourRotationsAreIdentity : Prop :=
  ∀ s : State, s.Inv → s.rv = true → ∃ t₁ t₂ t₃ t₄, exec .rot270 s = .next t₁ ∧ exec .rot270 t₁ = .next t₂ ∧
    exec .rot270 t₂ = .next t₃ ∧ exec .rot270 t₃ = .next t₄ ∧ t₂.cw = s.cw ∧ t₂.ch = s.ch ∧
    (∀ x y, x < s.cw.toNat → y < s.ch.toNat →
      pixelAt t₂ ((s.ch.toNat - 1 - y) * s.cw.toNat + (s.cw.toNat - 1 - x)) = pixelAt s (y * s.cw.toNat + x)) ∧
    t₄ = { s with draws := t₄.draws }

/-- R126, law 4: rotate-then-mirror, twice, restores the raster, and everything else. -/
def Obligations.SourceTransformIsItsOwnInverse : Prop :=
  ∀ s : State, s.Inv → s.rv = true → ∃ t₁ t₂ t₃ t₄, exec .rot270 s = .next t₁ ∧ exec .hflip t₁ = .next t₂ ∧
    exec .rot270 t₂ = .next t₃ ∧ exec .hflip t₃ = .next t₄ ∧ t₄ = { s with draws := t₄.draws }

/-- R126, law 6: ROT270 and HFLIP keep the multiset of pixels. -/
def Obligations.TransformsPermutePixels : Prop :=
  ∀ (s t : State) (i : Instr), s.Inv → s.rv = true → i = .rot270 ∨ i = .hflip → exec i s = .next t →
    ((List.range (npix s.geom)).map (pixelAt t)).Perm ((List.range (npix s.geom)).map (pixelAt s))

/-! ### CONVERT -/

/-- R145: CONVERT's encoding; it is DECODE, then ROT270, then HFLIP, as one command; on a size mismatch it is DECODE
alone; it never reports NOT_READY. -/
def Obligations.ConvertIsThePipeline : Prop :=
  decode 0x00000005#32 = .ok .convert ∧ ReservedFieldsIllegal 0x5 ∧
  (∀ s : State, s.len.toNat ≠ 2 * s.geom.W.toNat * s.geom.H.toNat →
    exec .convert s = .next { s with
      rv := false, cw := 0, ch := 0, err := true, ecode := if s.err = true then s.ecode else 1 }) ∧
  (∀ s : State, s.len.toNat = 2 * s.geom.W.toNat * s.geom.H.toNat →
    ∃ t₁ t₂ t₃, exec .decode s = .next t₁ ∧ exec .rot270 t₁ = .next t₂ ∧ exec .hflip t₂ = .next t₃ ∧
      exec .convert s = .next t₃ ∧ t₃.rv = true ∧ t₃.err = s.err ∧ t₃.ecode = s.ecode)

/-- R146: the closed form of a successful CONVERT, on every state of every build, and its frame. It uses one draw
number for each byte its three commands read, `2*W*H`, `3*W*H` and `3*W*H` (R34, R145); the numbering is the model's (log
entry 4). -/
def Obligations.ConvertClosedForm : Prop :=
  ∀ s : State, s.len.toNat = 2 * s.geom.W.toNat * s.geom.H.toNat → ∃ t, exec .convert s = .next t ∧
    t = { s with
      rv := true, cw := s.geom.H, ch := s.geom.W, rast := t.rast,
      draws := s.draws + 8 * (s.geom.W.toNat * s.geom.H.toNat) } ∧
    (∀ i, i < s.geom.W.toNat * s.geom.H.toNat →
      pixelAt t ((s.geom.W.toNat - 1 - i % s.geom.W.toNat) * s.geom.H.toNat +
          (s.geom.H.toNat - 1 - i / s.geom.W.toNat)) =
        writtenPixel (dec565 (ibufWord s.ibuf i s.draws))) ∧
    (∀ a, 3 * (s.geom.W.toNat * s.geom.H.toNat) ≤ a → memGet t.rast a = memGet s.rast a)

/-- R145, a corner case: the result does not depend on what RAST, RDIM or STATUS.RV held before. -/
def Obligations.ConvertIgnoresTheOldRaster : Prop :=
  ∀ (s t : State) (m : Memory) (cw ch : Half) (rv : Bool),
    s.len.toNat = 2 * s.geom.W.toNat * s.geom.H.toNat → exec .convert s = .next t →
    ∃ u, exec .convert { s with rast := m, cw := cw, ch := ch, rv := rv } = .next u ∧
      u = { t with rast := u.rast } ∧ ∀ a, a < rbytes s.geom → memGet u.rast a = memGet t.rast a

/-- R199: with IBUF and LEN unchanged and every IBUF byte written, a second DECODE or CONVERT leaves what the first
did. -/
def Obligations.RepeatedConversionGivesTheSame : Prop :=
  ∀ (s t : State) (i : Instr), s.Inv → InputWritten s → i = .decode ∨ i = .convert → exec i s = .next t →
    ∃ u, exec i t = .next u ∧ u = { t with draws := u.draws }

/-! ### Errors -/

/-- R172, R198: the first error is kept. While ERR = 1 no command changes ERR or ECODE, and neither does an illegal
word. -/
def Obligations.FirstErrorIsKept : Prop :=
  ∀ s : State, s.err = true →
    (∀ i, ∃ t, exec i s = .next t ∧ t.err = true ∧ t.ecode = s.ecode) ∧
    (∀ (c : Word) (rest : List Event), s.host = .txn (cmdWrite c) :: rest →
      ∃ t, step s = .next t ∧ t.err = true ∧ t.ecode = s.ecode)

/-- R170, R173: from ERR = 0, the one code a command records is the one its own guard gives, and only when that guard
fails. -/
def Obligations.RecordedCodeNamesTheGuard : Prop :=
  ∀ (s t : State) (i : Instr), s.err = false → s.ecode = 0 → exec i s = .next t →
    (t.ecode = 1 ↔ (i = .decode ∨ i = .convert) ∧ s.len.toNat ≠ 2 * s.geom.W.toNat * s.geom.H.toNat) ∧
    (t.ecode = 3 ↔ (i = .rot270 ∨ i = .hflip) ∧ s.rv = false) ∧
    (t.ecode = 0 ∨ t.ecode = 1 ∨ t.ecode = 3) ∧ (t.err = true ↔ t.ecode ≠ 0)

/-- R175: command errors are precise. A command that raises an error, or an illegal word, changes no RAST byte, no IBUF
byte, LEN or PIXOUT: only the error record and, for SIZE_MISMATCH, RV and RDIM. -/
def Obligations.CommandErrorsArePrecise : Prop :=
  (∀ (s t : State) (i : Instr), s.err = false → exec i s = .next t → t.err = true →
    (t = { s with err := true, ecode := 3 }) ∨
    (t = { s with err := true, ecode := 1, rv := false, cw := 0, ch := 0 })) ∧
  (∀ (s : State) (c : Word) (why : Illegal) (rest : List Event), s.err = false → decode c = .illegal why →
    s.host = .txn (cmdWrite c) :: rest → step s = .next { s with
      host := rest, responses := s.responses ++ [.ok 0], err := true, ecode := 2 })

/-- R143: a command runs whatever the value of STATUS.ERR: with another error record its effect is the same but for
that record. -/
def Obligations.ErrorRecordBlocksNoCommand : Prop :=
  ∀ (s t : State) (i : Instr) (err : Bool) (ecode : BitVec 4), exec i s = .next t →
    ∃ u, exec i { s with err := err, ecode := ecode } = .next u ∧ u = { t with err := u.err, ecode := u.ecode }

/-! ### The host's transactions -/

/-- R152: which transactions are legal; every other one is a bus error. -/
def Obligations.LegalTransactionsExactly : Prop :=
  ∀ (s : State) (x : Txn) (rest : List Event), s.host = .txn x :: rest →
    ∃ t r, step s = .next t ∧ t.responses = s.responses ++ [r] ∧ (r = .buserr ↔ ¬ Legal s.geom x)

/-- R176: a bus error answers `buserr`, changes no state of the block and records nothing in STATUS; the run records
its fault (R177). -/
def Obligations.BusErrorChangesNoState : Prop :=
  ∀ (s : State) (x : Txn) (rest : List Event), s.host = .txn x :: rest → ¬ Legal s.geom x →
    step s = .next { s with
      host := rest, responses := s.responses ++ [.buserr], faults := s.faults ++ [.busError x] }

/-- R177: no step clears a fault of the run. -/
def Obligations.FaultsAreNeverCleared : Prop :=
  ∀ s t : State, step s = .next t → ∃ new, t.faults = s.faults ++ new

/-- R153: what a read of each control register gives, and that no state changes. -/
def Obligations.RegisterReads : Prop :=
  ∀ (s : State) (a : BitVec 19) (w : Word) (rest : List Event), s.host = .txn ⟨.read, a, 2, w⟩ :: rest →
    ∀ v : Word,
      (a = 0x00 ∧ v = (s.geom.H.setWidth 32 <<< 16) ||| s.geom.W.setWidth 32) ∨
      (a = 0x04 ∧ v = 0) ∨
      (a = 0x08 ∧ v = (s.ecode.setWidth 32 <<< 4) ||| ((BitVec.ofBool s.err).setWidth 32 <<< 1) |||
        (BitVec.ofBool s.rv).setWidth 32) ∨
      (a = 0x0C ∧ v = s.len) ∨ (a = 0x10 ∧ v = s.pixout.setWidth 32) ∨
      (a = 0x14 ∧ v = (s.ch.setWidth 32 <<< 16) ||| s.cw.setWidth 32) →
    step s = .next { s with host := rest, responses := s.responses ++ [.ok v] }

/-- R154: what a write to each control register does. -/
def Obligations.RegisterWrites : Prop :=
  ∀ (s : State) (a : BitVec 19) (v : Word) (rest : List Event), s.host = .txn ⟨.write, a, 2, v⟩ :: rest →
    (a = 0x00 ∨ a = 0x10 ∨ a = 0x14 →
      step s = .next { s with host := rest, responses := s.responses ++ [.ok 0] }) ∧
    (a = 0x04 → ∃ t, step s = .next t ∧ t.responses = s.responses ++ [.ok 0] ∧
      step s = onNext (respond (.ok 0)) (runCommand v { s with host := rest })) ∧
    (a = 0x08 → step s = .next { s with
      host := rest, responses := s.responses ++ [.ok 0],
      err := if v.getLsbD 1 = true then false else s.err,
      ecode := if v.getLsbD 1 = true then 0 else s.ecode }) ∧
    (a = 0x0C → step s = .next { s with host := rest, responses := s.responses ++ [.ok 0], len := v })

/-- R25: in a read of STATUS bit 0 is RV, bit 1 ERR, bits 7:4 ECODE, and the reserved bits are 0; bits 31:24 of a read
of PIXOUT are 0 (R28). -/
def Obligations.StatusAndPixoutFields : Prop :=
  ∀ s : State, (statusWord s).extractLsb' 0 1 = BitVec.ofBool s.rv ∧
    (statusWord s).extractLsb' 1 1 = BitVec.ofBool s.err ∧ (statusWord s).extractLsb' 2 2 = 0 ∧
    (statusWord s).extractLsb' 4 4 = s.ecode ∧ (statusWord s).extractLsb' 8 24 = 0 ∧
    (readReg s .pixout).extractLsb' 24 8 = 0 ∧ (readReg s .pixout).extractLsb' 0 24 = s.pixout

/-- R155: a legal write to IBUF stores byte `k` of the value at `a + k`, and changes nothing else. -/
def Obligations.InputWrite : Prop :=
  ∀ (s : State) (x : Txn) (rest : List Event) (n : Nat), s.host = .txn x :: rest → x.kind = .write →
    sizeBytes x.size = some n → 0x20000 ≤ x.addr.toNat → Legal s.geom x →
    ∃ t, step s = .next t ∧
      t = { s with host := rest, responses := s.responses ++ [.ok 0], ibuf := t.ibuf } ∧
      (∀ k, k < n → memGet t.ibuf (x.addr.toNat - 0x20000 + k) = some (x.wdata.extractLsb' (8 * k) 8)) ∧
      (∀ a, a < x.addr.toNat - 0x20000 ∨ x.addr.toNat - 0x20000 + n ≤ a → memGet t.ibuf a = memGet s.ibuf a)

/-- R156, R53: a legal read of IBUF gives the bytes `a`, ..., `a + n - 1`, little-endian and zero-extended, each
unwritten byte a draw; no state changes. -/
def Obligations.InputRead : Prop :=
  ∀ (s : State) (x : Txn) (rest : List Event) (n : Nat), s.host = .txn x :: rest → x.kind = .read →
    sizeBytes x.size = some n → 0x20000 ≤ x.addr.toNat → x.addr.toNat < 0x40000 → Legal s.geom x →
    ∃ v : Word, step s = .next { s with
        host := rest, responses := s.responses ++ [.ok v], draws := s.draws + n } ∧
      (∀ k, k < n → ReadsAs s.ibuf (x.addr.toNat - 0x20000 + k) (s.draws + k) (v.extractLsb' (8 * k) 8)) ∧
      v >>> (8 * n) = 0

/-- R157, R53: a legal read of RAST, whatever STATUS.RV; no state changes. -/
def Obligations.RasterRead : Prop :=
  ∀ (s : State) (x : Txn) (rest : List Event) (n : Nat), s.geom.WellFormed = true →
    s.host = .txn x :: rest → sizeBytes x.size = some n → 0x40000 ≤ x.addr.toNat → Legal s.geom x →
    ∃ v : Word, step s = .next { s with
        host := rest, responses := s.responses ++ [.ok v], draws := s.draws + n } ∧
      (∀ k, k < n → ReadsAs s.rast (x.addr.toNat - 0x40000 + k) (s.draws + k) (v.extractLsb' (8 * k) 8)) ∧
      v >>> (8 * n) = 0

/-- R53: what the host writes to IBUF it reads back at the same offset and size, whatever the high bits of the write
data were. -/
def Obligations.InputReadAfterWrite : Prop :=
  ∀ (s : State) (a : BitVec 19) (size : BitVec 2) (v w : Word) (n : Nat) (rest : List Event),
    s.host = .txn ⟨.write, a, size, v⟩ :: .txn ⟨.read, a, size, w⟩ :: rest → sizeBytes size = some n →
    0x20000 ≤ a.toNat → Legal s.geom ⟨.write, a, size, v⟩ →
    ∃ t u, step s = .next t ∧ step t = .next u ∧
      u.responses = s.responses ++ [.ok 0, .ok (BitVec.ofNat 32 (v.toNat % 2 ^ (8 * n)))]

/-- R55: a 32-bit write at IBUF offset `4j` sets pixel word `2j` to `v[15:0]` and pixel word `2j+1` to `v[31:16]`. -/
def Obligations.WideInputWriteSetsTwoPixelWords : Prop :=
  ∀ (s : State) (a : BitVec 19) (v : Word) (j d : Nat) (rest : List Event),
    s.host = .txn ⟨.write, a, 2, v⟩ :: rest → a.toNat = 0x20000 + 4 * j → 4 * j + 4 ≤ ibytes s.geom →
    ∃ t, step s = .next t ∧ ibufWord t.ibuf (2 * j) d = v.extractLsb' 0 16 ∧
      ibufWord t.ibuf (2 * j + 1) d = v.extractLsb' 16 16

/-- R190: `rst` gives the reset state of R37, with GEOM unchanged, from every state. R191: so does `rst` during a
command, whose CMD write gets no response. -/
def Obligations.ResetFromEveryState : Prop :=
  ∀ (s : State) (e : Event) (rest : List Event), s.host = e :: rest → (e = .reset ∨ ∃ c, e = .resetDuringCmd c) →
    step s = .next {
      geom := s.geom, len := 0, pixout := 0, rv := false, err := false, ecode := 0, cw := 0, ch := 0,
      ibuf := [], rast := [], host := rest, responses := s.responses, faults := s.faults, draws := s.draws }

/-! ### Whole-machine rules -/

/-- R23: GEOM never changes, and reset does not change it. -/
def Obligations.GeometryNeverChanges : Prop := ∀ s t : State, step s = .next t → t.geom = s.geom

/-- R61: no read has a side effect, legal or not: whatever a host read does to the block is nothing. -/
def Obligations.NoReadHasASideEffect : Prop :=
  ∀ (s : State) (x : Txn) (rest : List Event), s.host = .txn x :: rest → x.kind = .read →
    ∃ t, step s = .next t ∧
      t = { s with host := rest, responses := t.responses, faults := t.faults, draws := t.draws }

/-- R196, R62: RAST changes only when the host writes one of the four raster commands to CMD, or on reset. -/
def Obligations.OnlyRasterCommandsChangeRast : Prop :=
  ∀ s t : State, step s = .next t → t.rast ≠ s.rast →
    (∃ c rest, s.host = .txn (cmdWrite c) :: rest ∧
      (decode c = .ok .decode ∨ decode c = .ok .rot270 ∨ decode c = .ok .hflip ∨ decode c = .ok .convert)) ∨
    (∃ rest, s.host = .reset :: rest) ∨ (∃ c rest, s.host = .resetDuringCmd c :: rest)

/-- R28: only the PIXEL command writes PIXOUT (reset apart). -/
def Obligations.OnlyPixelWritesPixout : Prop :=
  ∀ s t : State, step s = .next t → t.pixout ≠ s.pixout →
    (∃ c w rest, s.host = .txn (cmdWrite c) :: rest ∧ decode c = .ok (.pixel w)) ∨
    (∃ rest, s.host = .reset :: rest) ∨ (∃ c rest, s.host = .resetDuringCmd c :: rest)

/-- R30: STATUS.RV becomes 1 only by a DECODE or CONVERT that passes its size check, and goes from 1 to 0 only by one
that fails it, or on reset. -/
def Obligations.OnlyDecodeAndConvertChangeRv : Prop :=
  ∀ s t : State, step s = .next t → t.rv ≠ s.rv →
    (∃ c rest, s.host = .txn (cmdWrite c) :: rest ∧ (decode c = .ok .decode ∨ decode c = .ok .convert) ∧
      (t.rv = true ↔ s.len.toNat = 2 * s.geom.W.toNat * s.geom.H.toNat)) ∨
    (t.rv = false ∧ ((∃ rest, s.host = .reset :: rest) ∨ ∃ c rest, s.host = .resetDuringCmd c :: rest))

/-- R30: STATUS.ERR goes from 1 to 0 only by a write to STATUS with bit 1 set, or on reset. -/
def Obligations.OnlyStatusWriteClearsErr : Prop :=
  ∀ s t : State, step s = .next t → s.err = true → t.err = false →
    (∃ v rest, s.host = .txn ⟨.write, 0x08, 2, v⟩ :: rest ∧ v.getLsbD 1 = true) ∨
    (∃ rest, s.host = .reset :: rest) ∨ (∃ c rest, s.host = .resetDuringCmd c :: rest)

/-- R31, R27, R110: no command writes IBUF, LEN or GEOM; on every step IBUF changes only by a host write to its
window, and LEN only by a host write to LEN (reset apart). -/
def Obligations.OnlyTheHostWritesInput : Prop :=
  (∀ (s t : State) (i : Instr), exec i s = .next t → t.ibuf = s.ibuf ∧ t.len = s.len ∧ t.geom = s.geom) ∧
  (∀ s t : State, step s = .next t → (∀ rest, s.host ≠ .reset :: rest) →
    (∀ c rest, s.host ≠ .resetDuringCmd c :: rest) →
    (t.ibuf ≠ s.ibuf → ∃ x rest, s.host = .txn x :: rest ∧ x.kind = .write ∧ 0x20000 ≤ x.addr.toNat) ∧
    (t.len ≠ s.len → ∃ v rest, s.host = .txn ⟨.write, 0x0C, 2, v⟩ :: rest))

/-! ### The assembler -/

/-- R87: a command line stands for one 32-bit write of its encoding to CMD; an operand out of range, or on a command
that takes none, is an assembly error and emits no word. -/
def Obligations.CommandLines : Prop :=
  (∀ w : Nat, w ≤ 0xFFFF → expandLine (.command .PIXEL [w]) =
    some [⟨.write, 0x04, 2, BitVec.ofNat 32 (w * 65536 + 1)⟩]) ∧
  (∀ w : Nat, 0xFFFF < w → expandLine (.command .PIXEL [w]) = none) ∧
  (∀ ops : List Nat, ops.length ≠ 1 → expandLine (.command .PIXEL ops) = none) ∧
  (∀ (m : Mnemonic) (op : Nat) (ops : List Nat), m ≠ .PIXEL → expandLine (.command m (op :: ops)) = none) ∧
  expandLine (.command .NOP []) = some [⟨.write, 0x04, 2, 0x00000000⟩] ∧
  expandLine (.command .DECODE []) = some [⟨.write, 0x04, 2, 0x00000002⟩] ∧
  expandLine (.command .ROT270 []) = some [⟨.write, 0x04, 2, 0x00000003⟩] ∧
  expandLine (.command .HFLIP []) = some [⟨.write, 0x04, 2, 0x00000004⟩] ∧
  expandLine (.command .CONVERT []) = some [⟨.write, 0x04, 2, 0x00000005⟩]

/-- R89: the expansions of the pseudo-instructions. R88: what the lines they expand to issue, for every address, width
and value inside the 512 KiB window and the 32-bit bus; a read line says nothing of the write value (R151). -/
def Obligations.PseudoInstructionExpansions : Prop :=
  expandLine .clrerr = expandLine (.wr .w32 (.reg .status) 0x00000002) ∧
  (∀ n, expandLine (.setlen n) = expandLine (.wr .w32 (.reg .len) n)) ∧
  (∀ i w, expandLine (.putpx i w) = expandLine (.wr .w16 (.buf .ibuf (2 * i)) w)) ∧
  (∀ k, expandLine (.getpx k) = expandProgram
    [.rd .w8 (.buf .rast (3 * k)), .rd .w8 (.buf .rast (3 * k + 1)), .rd .w8 (.buf .rast (3 * k + 2))]) ∧
  (∀ region a v n, expandLine (.fill32 region a v n) = expandProgram
    ((List.range n).map fun j => .wr .w32 (.buf region (a + 4 * j)) v)) ∧
  (∀ addr x w size v, AddrMeans addr x → WidthMeans w size → x < 0x80000 → v < 2 ^ 32 →
    expandLine (.wr w addr v) = some [⟨.write, BitVec.ofNat 19 x, size, BitVec.ofNat 32 v⟩] ∧
    (∃ d, expandLine (.rd w addr) = some [⟨.read, BitVec.ofNat 19 x, size, d⟩]) ∧
    (∃ d, expandLine (.rdExpect addr v) = some [⟨.read, BitVec.ofNat 19 x, 2, d⟩]) ∧
    expected (.rdExpect addr v) = some (.ok (BitVec.ofNat 32 v)))

/-- THE MODEL'S CHOICE (log entry 13): a line whose offset lies outside the 512 KiB window, or whose value or expected
result needs more than 32 bits, issues nothing, and a test program expects nothing of it. R88 is silent on such lines. -/
def Obligations.LinesOutsideTheBusIssueNothing : Prop :=
  ∀ addr x w v, AddrMeans addr x →
    (0x80000 ≤ x → expandLine (.rd w addr) = none) ∧
    (0x80000 ≤ x ∨ 2 ^ 32 ≤ v → expandLine (.wr w addr v) = none ∧ expandLine (.rdExpect addr v) = none) ∧
    (2 ^ 32 ≤ v → expected (.rdExpect addr v) = none)

/-- R50, R9: a host address `BASE + a` with `a` in the 512 KiB window is the port's byte offset `a`; every address
outside the window belongs to the platform. -/
def Obligations.WindowOffsets : Prop :=
  (∀ a : BitVec 19, windowOffset (Config.base + a.toNat) = some a) ∧
  (∀ x : Nat, x < Config.base ∨ Config.base + 0x80000 ≤ x → windowOffset x = none) ∧ 0x80000 ∣ Config.base
end

