-- ==== Sys2Proof/Laws/Memory.lean ====
section
/-! SUPPORT. The laws of the buffers: what a read finds after a write, and that every memory operation keeps the
canonical form and stays inside its buffer. -/

namespace Sys2Proof.Laws

open Sys2Proof.Machine

@[simp] theorem memGet_nil (a : Nat) : memGet [] a = none := rfl

theorem memGet_cons (c : Host.Cell) (m : Memory) (a : Nat) :
    memGet (c :: m) a = if a = c.1 then some c.2 else memGet m a := by
  obtain ⟨k, b⟩ := c
  simp only [memGet, memUnlisted, Option.or_none, List.lookup_cons]
  by_cases h : a = k
  · simp [h]
  · simp [beq_false_of_ne h, h]

/-- Offsets that no cell of the list holds read as unwritten. -/
theorem memGet_eq_none {m : Memory} {a : Nat} (h : ∀ c ∈ m, c.1 ≠ a) : memGet m a = none := by
  induction m with
  | nil => rfl
  | cons c m ih =>
    rw [memGet_cons, if_neg (h c (by simp)).symm]
    exact ih fun c' hc' => h c' (by simp [hc'])

theorem memGet_append (l m : Memory) (a : Nat) : memGet (l ++ m) a = (memGet l a).or (memGet m a) := by
  induction l with
  | nil => simp
  | cons c l ih => rw [List.cons_append, memGet_cons, memGet_cons, ih]; split <;> simp

/-! ### Writing one byte -/

/-- Read after write: the byte written, and every other byte as before (R34). -/
theorem memGet_memPut (m : Memory) (a : Nat) (b : Byte) (a' : Nat) :
    memGet (memPut m a b) a' = if a' = a then some b else memGet m a' := by
  induction m with
  | nil => simp [memPut, memGet_cons]
  | cons c m ih =>
    unfold memPut
    split_ifs with h1 h2 h3 <;> simp only [memGet_cons, ih] <;> split_ifs <;> first | rfl | omega

theorem mem_memPut {m : Memory} {a : Nat} {b : Byte} {c : Host.Cell} (h : c ∈ memPut m a b) :
    c = (a, b) ∨ c ∈ m := by
  induction m with
  | nil => simpa [memPut] using h
  | cons d m ih =>
    unfold memPut at h
    split_ifs at h
    · simpa using h
    · rcases List.mem_cons.1 h with h | h
      · exact .inl h
      · exact .inr (by simp [h])
    · rcases List.mem_cons.1 h with h | h
      · exact .inr (by simp [h])
      · exact (ih h).imp_right fun h => by simp [h]

theorem memPut_wf {m : Memory} (a : Nat) (b : Byte) (h : m.wf) : (memPut m a b).wf := by
  induction m with
  | nil => simp [memPut, Memory.wf]
  | cons c m ih =>
    obtain ⟨hc, hm⟩ := List.pairwise_cons.1 h
    unfold memPut
    split_ifs with h1 h2
    · refine List.pairwise_cons.2 ⟨fun d hd => ?_, h⟩
      rcases List.mem_cons.1 hd with rfl | hd
      · exact h1
      · exact Nat.lt_trans h1 (hc d hd)
    · exact List.pairwise_cons.2 ⟨fun d hd => h2 ▸ hc d hd, hm⟩
    · refine List.pairwise_cons.2 ⟨fun d hd => ?_, ih hm⟩
      rcases mem_memPut hd with rfl | hd
      · show c.1 < a; omega
      · exact hc d hd

theorem memPut_within {m : Memory} {a n : Nat} (b : Byte) (ha : a < n) (h : m.within n) :
    (memPut m a b).within n := by
  intro c hc
  rcases mem_memPut hc with rfl | hc
  · exact ha
  · exact h c hc

/-! ### Writing several bytes -/

/-- After writing `bs` from `a`, a byte in `[a, a + length)` is the one written and every other is as before. -/
theorem memGet_memPutBytes (m : Memory) (a : Nat) (bs : List Byte) (a' : Nat) :
    memGet (memPutBytes m a bs) a' = if a ≤ a' then (bs[a' - a]?).or (memGet m a') else memGet m a' := by
  induction bs generalizing m a with
  | nil => simp [memPutBytes]
  | cons b bs ih =>
    rw [memPutBytes, ih, memGet_memPut]
    rcases Nat.lt_trichotomy a a' with h | h | h
    · rw [if_pos (show a + 1 ≤ a' by omega), if_neg (by omega), if_pos (by omega),
        show a' - a = (a' - (a + 1)) + 1 by omega, List.getElem?_cons_succ]
    · subst h; simp
    · rw [if_neg (by omega), if_neg (by omega), if_neg (by omega)]

theorem memPutBytes_wf {m : Memory} (a : Nat) (bs : List Byte) (h : m.wf) : (memPutBytes m a bs).wf := by
  induction bs generalizing m a with
  | nil => exact h
  | cons b bs ih => exact ih (a + 1) (memPut_wf a b h)

theorem memPutBytes_within {m : Memory} {a n : Nat} (bs : List Byte) (ha : a + bs.length ≤ n) (h : m.within n) :
    (memPutBytes m a bs).within n := by
  induction bs generalizing m a with
  | nil => exact h
  | cons b bs ih =>
    simp only [List.length_cons] at ha
    exact ih (by omega) (memPut_within b (by omega) h)

@[simp] theorem leBytes_length (v : Word) (n : Nat) : (leBytes v n).length = n := by simp [leBytes]

/-- `MemWrite` (R13): byte `a + k` becomes `v[8k+7:8k]`. -/
theorem memGet_memWrite_inside (m : Memory) {a n k : Nat} (v : Word) (hk : k < n) :
    memGet (memWrite m a n v) (a + k) = some (v.extractLsb' (8 * k) 8) := by
  simp [memWrite, memGet_memPutBytes, leBytes, hk]

/-- `MemWrite` changes no byte outside `[a, a + n)`. -/
theorem memGet_memWrite_outside (m : Memory) {a n a' : Nat} (v : Word) (h : a' < a ∨ a + n ≤ a') :
    memGet (memWrite m a n v) a' = memGet m a' := by
  rw [memWrite, memGet_memPutBytes]
  split_ifs with h1
  · rw [List.getElem?_eq_none (by simp; omega)]; rfl
  · rfl

theorem memWrite_wf {m : Memory} (a n : Nat) (v : Word) (h : m.wf) : (memWrite m a n v).wf :=
  memPutBytes_wf a _ h

theorem memWrite_within {m : Memory} {a n size : Nat} (v : Word) (ha : a + n ≤ size) (h : m.within size) :
    (memWrite m a n v).within size :=
  memPutBytes_within _ (by simpa using ha) h

/-- A written byte reads as what it holds, whichever draw stands by (R34). -/
theorem readByte_of_written {m : Memory} {a : Nat} {b : Byte} (h : memGet m a = some b) (d : Nat) :
    readByte m a d = b := by
  simp [readByte, h]

/-- An unwritten byte reads as a draw (R34). -/
theorem readByte_of_unwritten {m : Memory} {a : Nat} (h : memGet m a = none) (d : Nat) :
    readByte m a d = Config.draw d := by
  simp [readByte, h]

/-! ### Writing pixels -/

/-- Channel 0, 1 or 2 of a pixel: R8, G8 or B8 (R33). -/
def channel (p : Pixel) (j : Nat) : Byte := if j = 0 then p.r else if j = 1 then p.g else p.b

/-- The cells of pixels stored from raster pixel `s` on. -/
def pixelCellsFrom (s : Nat) (ps : List Pixel) : Memory :=
  (ps.zipIdx s).flatMap fun p => [(3 * p.2, p.1.r), (3 * p.2 + 1, p.1.g), (3 * p.2 + 2, p.1.b)]

theorem pixelCells_eq (ps : List Pixel) : pixelCells ps = pixelCellsFrom 0 ps := rfl

theorem pixelCellsFrom_cons (s : Nat) (p : Pixel) (ps : List Pixel) :
    pixelCellsFrom s (p :: ps) =
      (3 * s, p.r) :: (3 * s + 1, p.g) :: (3 * s + 2, p.b) :: pixelCellsFrom (s + 1) ps := by
  simp [pixelCellsFrom, List.zipIdx_cons]

theorem pixelCellsFrom_bounds {s : Nat} {ps : List Pixel} {c : Host.Cell} (h : c ∈ pixelCellsFrom s ps) :
    3 * s ≤ c.1 ∧ c.1 < 3 * (s + ps.length) := by
  induction ps generalizing s with
  | nil => simp [pixelCellsFrom] at h
  | cons p ps ih =>
    rw [pixelCellsFrom_cons] at h
    simp only [List.mem_cons] at h
    simp only [List.length_cons]
    rcases h with rfl | rfl | rfl | h
    · exact ⟨Nat.le_refl _, by show 3 * s < _; omega⟩
    · exact ⟨by show _ ≤ 3 * s + 1; omega, by show 3 * s + 1 < _; omega⟩
    · exact ⟨by show _ ≤ 3 * s + 2; omega, by show 3 * s + 2 < _; omega⟩
    · have := ih h; omega

theorem pixelCellsFrom_wf (s : Nat) (ps : List Pixel) : (pixelCellsFrom s ps).wf := by
  induction ps generalizing s with
  | nil => simp [pixelCellsFrom, Memory.wf]
  | cons p ps ih =>
    have hb : ∀ c ∈ pixelCellsFrom (s + 1) ps, 3 * (s + 1) ≤ c.1 := fun c hc => (pixelCellsFrom_bounds hc).1
    rw [pixelCellsFrom_cons]
    refine List.pairwise_cons.2 ⟨?_, List.pairwise_cons.2 ⟨?_, List.pairwise_cons.2 ⟨?_, ih (s + 1)⟩⟩⟩
    · intro c hc
      simp only [List.mem_cons] at hc
      rcases hc with rfl | rfl | hc
      · simp
      · simp
      · have := hb c hc; show 3 * s < c.1; omega
    · intro c hc
      simp only [List.mem_cons] at hc
      rcases hc with rfl | hc
      · simp
      · have := hb c hc; show 3 * s + 1 < c.1; omega
    · intro c hc
      have := hb c hc; show 3 * s + 2 < c.1; omega

theorem memGet_pixelCellsFrom (s : Nat) (ps : List Pixel) (k j : Nat) (hj : j < 3) :
    memGet (pixelCellsFrom s ps) (3 * (s + k) + j) = ps[k]?.map (channel · j) := by
  induction ps generalizing s k with
  | nil => simp [pixelCellsFrom]
  | cons p ps ih =>
    simp only [pixelCellsFrom_cons, memGet_cons]
    cases k with
    | zero =>
      have : j = 0 ∨ j = 1 ∨ j = 2 := by omega
      rcases this with rfl | rfl | rfl <;> simp [channel]
    | succ k =>
      rw [if_neg (by omega), if_neg (by omega), if_neg (by omega), List.getElem?_cons_succ,
        show 3 * (s + (k + 1)) + j = 3 * (s + 1 + k) + j by omega, ih]

theorem memGet_filter_above (m : Memory) {n a : Nat} (h : n ≤ a) :
    memGet (m.filter fun c => decide (n ≤ c.1)) a = memGet m a := by
  induction m with
  | nil => rfl
  | cons c m ih =>
    by_cases hc : n ≤ c.1
    · simp [hc, memGet_cons, ih]
    · rw [List.filter_cons_of_neg (by simpa using hc), ih, memGet_cons, if_neg (by omega)]

/-- After `Px(k) <- ps[k]` for all `k`, channel `j` of raster pixel `k` is that of `ps[k]` (R13, R33). -/
theorem memGet_putPixels_inside (m : Memory) (ps : List Pixel) {k j : Nat} (hj : j < 3) (hk : k < ps.length) :
    memGet (putPixels m ps) (3 * k + j) = some (channel ps[k] j) := by
  have h := memGet_pixelCellsFrom 0 ps k j hj
  rw [Nat.zero_add] at h
  rw [putPixels, memGet_append, pixelCells_eq, h]
  simp [hk]

/-- Bytes above the pixels written are as before. -/
theorem memGet_putPixels_outside (m : Memory) (ps : List Pixel) {a : Nat} (h : 3 * ps.length ≤ a) :
    memGet (putPixels m ps) a = memGet m a := by
  rw [putPixels, memGet_append, pixelCells_eq, memGet_filter_above m h,
    memGet_eq_none fun c hc => by have := pixelCellsFrom_bounds hc; omega]
  rfl

theorem putPixels_wf {m : Memory} (ps : List Pixel) (h : m.wf) : (putPixels m ps).wf := by
  refine List.pairwise_append.2 ⟨pixelCellsFrom_wf 0 ps, h.filter _, fun c hc d hd => ?_⟩
  have := pixelCellsFrom_bounds hc
  have hd := (List.mem_filter.1 hd).2
  simp only [decide_eq_true_eq] at hd
  omega

theorem putPixels_within {m : Memory} {ps : List Pixel} {n : Nat} (hn : 3 * ps.length ≤ n) (h : m.within n) :
    (putPixels m ps).within n := by
  intro c hc
  rcases List.mem_append.1 hc with hc | hc
  · have := pixelCellsFrom_bounds hc; omega
  · exact h c (List.mem_filter.1 hc).1

/-- The three bytes of raster pixel `k` after a pixel write. -/
theorem putPixels_pixel (m : Memory) (ps : List Pixel) {k : Nat} (hk : k < ps.length) :
    memGet (putPixels m ps) (3 * k) = some ps[k].r ∧ memGet (putPixels m ps) (3 * k + 1) = some ps[k].g ∧
      memGet (putPixels m ps) (3 * k + 2) = some ps[k].b :=
  ⟨memGet_putPixels_inside m ps (j := 0) (by omega) hk, memGet_putPixels_inside m ps (j := 1) (by omega) hk,
    memGet_putPixels_inside m ps (j := 2) (by omega) hk⟩

/-- Every byte below the pixels written is written. -/
theorem putPixels_written (m : Memory) (ps : List Pixel) {a : Nat} (h : a < 3 * ps.length) :
    (memGet (putPixels m ps) a).isSome = true := by
  have hk : a / 3 < ps.length := by omega
  have := memGet_putPixels_inside m ps (j := a % 3) (by omega) hk
  rw [show 3 * (a / 3) + a % 3 = a by omega] at this
  simp [this]

/-! ### Reading pixels -/

@[simp] theorem readPixels_size (m : Memory) (n d : Nat) : (readPixels m n d).size = n := by simp [readPixels]

/-- Pixel `k` of the snapshot (R121). -/
theorem readPixels_getD (m : Memory) {n k : Nat} (d : Nat) (hk : k < n) :
    (readPixels m n d).getD k default = readPixel m k d := by
  simp [readPixels, Array.getD, hk]

/-- Reading back pixels that were written (R13). -/
theorem readPixel_putPixels (m : Memory) (ps : List Pixel) {k : Nat} (d : Nat) (hk : k < ps.length) :
    readPixel (putPixels m ps) k d = ps[k] := by
  obtain ⟨hr, hg, hb⟩ := putPixels_pixel m ps hk
  simp [readPixel, readByte_of_written hr, readByte_of_written hg, readByte_of_written hb]

@[simp] theorem decodedPixels_length (m : Memory) (n d : Nat) : (decodedPixels m n d).length = n := by
  simp [decodedPixels]

theorem decodedPixels_getElem (m : Memory) (n d i : Nat) (h : i < (decodedPixels m n d).length) :
    (decodedPixels m n d)[i] = dec565 (ibufWord m i d) := by
  simp [decodedPixels]

@[simp] theorem movedPixels_length (source : Nat → Nat) (n : Nat) (T : Array Pixel) :
    (movedPixels source n T).length = n := by
  simp [movedPixels]

theorem movedPixels_getElem (source : Nat → Nat) (n : Nat) (T : Array Pixel) (k : Nat)
    (h : k < (movedPixels source n T).length) : (movedPixels source n T)[k] = T.getD (source k) default := by
  simp [movedPixels]

end Sys2Proof.Laws
end

