-- ==== Sys2Proof/Laws/State.lean ====
section
/-! SUPPORT. One lemma per field per update: what each shared operation does to each field of State. -/

namespace Sys2Proof.Laws

open Sys2Proof.Machine

/-! ### respond: Answering a transaction (R151). -/

@[simp] theorem respond_geom (r : Response) (s : State) : (respond r s).geom = s.geom := rfl
@[simp] theorem respond_len (r : Response) (s : State) : (respond r s).len = s.len := rfl
@[simp] theorem respond_pixout (r : Response) (s : State) : (respond r s).pixout = s.pixout := rfl
@[simp] theorem respond_rv (r : Response) (s : State) : (respond r s).rv = s.rv := rfl
@[simp] theorem respond_err (r : Response) (s : State) : (respond r s).err = s.err := rfl
@[simp] theorem respond_ecode (r : Response) (s : State) : (respond r s).ecode = s.ecode := rfl
@[simp] theorem respond_cw (r : Response) (s : State) : (respond r s).cw = s.cw := rfl
@[simp] theorem respond_ch (r : Response) (s : State) : (respond r s).ch = s.ch := rfl
@[simp] theorem respond_ibuf (r : Response) (s : State) : (respond r s).ibuf = s.ibuf := rfl
@[simp] theorem respond_rast (r : Response) (s : State) : (respond r s).rast = s.rast := rfl
@[simp] theorem respond_host (r : Response) (s : State) : (respond r s).host = s.host := rfl
@[simp] theorem respond_responses (r : Response) (s : State) : (respond r s).responses = s.responses ++ [r] := rfl
@[simp] theorem respond_faults (r : Response) (s : State) : (respond r s).faults = s.faults := rfl
@[simp] theorem respond_draws (r : Response) (s : State) : (respond r s).draws = s.draws := rfl

/-! ### busError: A bus error (R176). -/

@[simp] theorem busError_geom (t : Txn) (s : State) : (busError t s).geom = s.geom := rfl
@[simp] theorem busError_len (t : Txn) (s : State) : (busError t s).len = s.len := rfl
@[simp] theorem busError_pixout (t : Txn) (s : State) : (busError t s).pixout = s.pixout := rfl
@[simp] theorem busError_rv (t : Txn) (s : State) : (busError t s).rv = s.rv := rfl
@[simp] theorem busError_err (t : Txn) (s : State) : (busError t s).err = s.err := rfl
@[simp] theorem busError_ecode (t : Txn) (s : State) : (busError t s).ecode = s.ecode := rfl
@[simp] theorem busError_cw (t : Txn) (s : State) : (busError t s).cw = s.cw := rfl
@[simp] theorem busError_ch (t : Txn) (s : State) : (busError t s).ch = s.ch := rfl
@[simp] theorem busError_ibuf (t : Txn) (s : State) : (busError t s).ibuf = s.ibuf := rfl
@[simp] theorem busError_rast (t : Txn) (s : State) : (busError t s).rast = s.rast := rfl
@[simp] theorem busError_host (t : Txn) (s : State) : (busError t s).host = s.host := rfl
@[simp] theorem busError_responses (t : Txn) (s : State) : (busError t s).responses = s.responses ++ [.buserr] := rfl
@[simp] theorem busError_faults (t : Txn) (s : State) : (busError t s).faults = s.faults ++ [.busError t] := rfl
@[simp] theorem busError_draws (t : Txn) (s : State) : (busError t s).draws = s.draws := rfl

/-! ### raiseCmdError: A command error (R172). -/

@[simp] theorem raiseCmdError_geom (code : CmdErrorCode) (s : State) : (raiseCmdError code s).geom = s.geom := by
  unfold raiseCmdError; split <;> rfl
@[simp] theorem raiseCmdError_len (code : CmdErrorCode) (s : State) : (raiseCmdError code s).len = s.len := by
  unfold raiseCmdError; split <;> rfl
@[simp] theorem raiseCmdError_pixout (code : CmdErrorCode) (s : State) :
    (raiseCmdError code s).pixout = s.pixout := by
  unfold raiseCmdError; split <;> rfl
@[simp] theorem raiseCmdError_rv (code : CmdErrorCode) (s : State) : (raiseCmdError code s).rv = s.rv := by
  unfold raiseCmdError; split <;> rfl
@[simp] theorem raiseCmdError_err (code : CmdErrorCode) (s : State) : (raiseCmdError code s).err = true := by
  unfold raiseCmdError; split <;> simp_all
@[simp] theorem raiseCmdError_ecode (code : CmdErrorCode) (s : State) :
    (raiseCmdError code s).ecode = if s.err = false then ecodeOf code else s.ecode := by
  unfold raiseCmdError; split <;> simp_all
@[simp] theorem raiseCmdError_cw (code : CmdErrorCode) (s : State) : (raiseCmdError code s).cw = s.cw := by
  unfold raiseCmdError; split <;> rfl
@[simp] theorem raiseCmdError_ch (code : CmdErrorCode) (s : State) : (raiseCmdError code s).ch = s.ch := by
  unfold raiseCmdError; split <;> rfl
@[simp] theorem raiseCmdError_ibuf (code : CmdErrorCode) (s : State) : (raiseCmdError code s).ibuf = s.ibuf := by
  unfold raiseCmdError; split <;> rfl
@[simp] theorem raiseCmdError_rast (code : CmdErrorCode) (s : State) : (raiseCmdError code s).rast = s.rast := by
  unfold raiseCmdError; split <;> rfl
@[simp] theorem raiseCmdError_host (code : CmdErrorCode) (s : State) : (raiseCmdError code s).host = s.host := by
  unfold raiseCmdError; split <;> rfl
@[simp] theorem raiseCmdError_responses (code : CmdErrorCode) (s : State) :
    (raiseCmdError code s).responses = s.responses := by
  unfold raiseCmdError; split <;> rfl
@[simp] theorem raiseCmdError_faults (code : CmdErrorCode) (s : State) :
    (raiseCmdError code s).faults = s.faults := by
  unfold raiseCmdError; split <;> rfl
@[simp] theorem raiseCmdError_draws (code : CmdErrorCode) (s : State) : (raiseCmdError code s).draws = s.draws := by
  unfold raiseCmdError; split <;> rfl

/-! ### writeStatus: A write to STATUS (R26). -/

@[simp] theorem writeStatus_geom (v : Word) (s : State) : (writeStatus v s).geom = s.geom := by
  unfold writeStatus; split <;> rfl
@[simp] theorem writeStatus_len (v : Word) (s : State) : (writeStatus v s).len = s.len := by
  unfold writeStatus; split <;> rfl
@[simp] theorem writeStatus_pixout (v : Word) (s : State) : (writeStatus v s).pixout = s.pixout := by
  unfold writeStatus; split <;> rfl
@[simp] theorem writeStatus_rv (v : Word) (s : State) : (writeStatus v s).rv = s.rv := by
  unfold writeStatus; split <;> rfl
@[simp] theorem writeStatus_err (v : Word) (s : State) : (writeStatus v s).err = (s.err && !v.getLsbD 1) := by
  unfold writeStatus; split <;> simp_all
@[simp] theorem writeStatus_ecode (v : Word) (s : State) :
    (writeStatus v s).ecode = if v.getLsbD 1 = true then 0 else s.ecode := by
  unfold writeStatus; split <;> simp_all
@[simp] theorem writeStatus_cw (v : Word) (s : State) : (writeStatus v s).cw = s.cw := by
  unfold writeStatus; split <;> rfl
@[simp] theorem writeStatus_ch (v : Word) (s : State) : (writeStatus v s).ch = s.ch := by
  unfold writeStatus; split <;> rfl
@[simp] theorem writeStatus_ibuf (v : Word) (s : State) : (writeStatus v s).ibuf = s.ibuf := by
  unfold writeStatus; split <;> rfl
@[simp] theorem writeStatus_rast (v : Word) (s : State) : (writeStatus v s).rast = s.rast := by
  unfold writeStatus; split <;> rfl
@[simp] theorem writeStatus_host (v : Word) (s : State) : (writeStatus v s).host = s.host := by
  unfold writeStatus; split <;> rfl
@[simp] theorem writeStatus_responses (v : Word) (s : State) : (writeStatus v s).responses = s.responses := by
  unfold writeStatus; split <;> rfl
@[simp] theorem writeStatus_faults (v : Word) (s : State) : (writeStatus v s).faults = s.faults := by
  unfold writeStatus; split <;> rfl
@[simp] theorem writeStatus_draws (v : Word) (s : State) : (writeStatus v s).draws = s.draws := by
  unfold writeStatus; split <;> rfl

/-! ### setRaster: A valid raster (R30). -/

@[simp] theorem setRaster_geom (cw ch : Half) (s : State) : (setRaster cw ch s).geom = s.geom := rfl
@[simp] theorem setRaster_len (cw ch : Half) (s : State) : (setRaster cw ch s).len = s.len := rfl
@[simp] theorem setRaster_pixout (cw ch : Half) (s : State) : (setRaster cw ch s).pixout = s.pixout := rfl
@[simp] theorem setRaster_rv (cw ch : Half) (s : State) : (setRaster cw ch s).rv = true := rfl
@[simp] theorem setRaster_err (cw ch : Half) (s : State) : (setRaster cw ch s).err = s.err := rfl
@[simp] theorem setRaster_ecode (cw ch : Half) (s : State) : (setRaster cw ch s).ecode = s.ecode := rfl
@[simp] theorem setRaster_cw (cw ch : Half) (s : State) : (setRaster cw ch s).cw = cw := rfl
@[simp] theorem setRaster_ch (cw ch : Half) (s : State) : (setRaster cw ch s).ch = ch := rfl
@[simp] theorem setRaster_ibuf (cw ch : Half) (s : State) : (setRaster cw ch s).ibuf = s.ibuf := rfl
@[simp] theorem setRaster_rast (cw ch : Half) (s : State) : (setRaster cw ch s).rast = s.rast := rfl
@[simp] theorem setRaster_host (cw ch : Half) (s : State) : (setRaster cw ch s).host = s.host := rfl
@[simp] theorem setRaster_responses (cw ch : Half) (s : State) : (setRaster cw ch s).responses = s.responses := rfl
@[simp] theorem setRaster_faults (cw ch : Half) (s : State) : (setRaster cw ch s).faults = s.faults := rfl
@[simp] theorem setRaster_draws (cw ch : Half) (s : State) : (setRaster cw ch s).draws = s.draws := rfl

/-! ### clearRaster: No valid raster (R106). -/

@[simp] theorem clearRaster_geom (s : State) : (clearRaster s).geom = s.geom := rfl
@[simp] theorem clearRaster_len (s : State) : (clearRaster s).len = s.len := rfl
@[simp] theorem clearRaster_pixout (s : State) : (clearRaster s).pixout = s.pixout := rfl
@[simp] theorem clearRaster_rv (s : State) : (clearRaster s).rv = false := rfl
@[simp] theorem clearRaster_err (s : State) : (clearRaster s).err = s.err := rfl
@[simp] theorem clearRaster_ecode (s : State) : (clearRaster s).ecode = s.ecode := rfl
@[simp] theorem clearRaster_cw (s : State) : (clearRaster s).cw = 0 := rfl
@[simp] theorem clearRaster_ch (s : State) : (clearRaster s).ch = 0 := rfl
@[simp] theorem clearRaster_ibuf (s : State) : (clearRaster s).ibuf = s.ibuf := rfl
@[simp] theorem clearRaster_rast (s : State) : (clearRaster s).rast = s.rast := rfl
@[simp] theorem clearRaster_host (s : State) : (clearRaster s).host = s.host := rfl
@[simp] theorem clearRaster_responses (s : State) : (clearRaster s).responses = s.responses := rfl
@[simp] theorem clearRaster_faults (s : State) : (clearRaster s).faults = s.faults := rfl
@[simp] theorem clearRaster_draws (s : State) : (clearRaster s).draws = s.draws := rfl

/-! ### applyReset: Reset (R37, R190). -/

@[simp] theorem applyReset_geom (s : State) : (applyReset s).geom = s.geom := rfl
@[simp] theorem applyReset_len (s : State) : (applyReset s).len = 0 := rfl
@[simp] theorem applyReset_pixout (s : State) : (applyReset s).pixout = 0 := rfl
@[simp] theorem applyReset_rv (s : State) : (applyReset s).rv = false := rfl
@[simp] theorem applyReset_err (s : State) : (applyReset s).err = false := rfl
@[simp] theorem applyReset_ecode (s : State) : (applyReset s).ecode = 0 := rfl
@[simp] theorem applyReset_cw (s : State) : (applyReset s).cw = 0 := rfl
@[simp] theorem applyReset_ch (s : State) : (applyReset s).ch = 0 := rfl
@[simp] theorem applyReset_ibuf (s : State) : (applyReset s).ibuf = [] := rfl
@[simp] theorem applyReset_rast (s : State) : (applyReset s).rast = [] := rfl
@[simp] theorem applyReset_host (s : State) : (applyReset s).host = s.host := rfl
@[simp] theorem applyReset_responses (s : State) : (applyReset s).responses = s.responses := rfl
@[simp] theorem applyReset_faults (s : State) : (applyReset s).faults = s.faults := rfl
@[simp] theorem applyReset_draws (s : State) : (applyReset s).draws = s.draws := rfl

/-! ### pushEvent: An event put at the head of the queue. -/

@[simp] theorem pushEvent_geom (e : Event) (s : State) : (pushEvent e s).geom = s.geom := rfl
@[simp] theorem pushEvent_len (e : Event) (s : State) : (pushEvent e s).len = s.len := rfl
@[simp] theorem pushEvent_pixout (e : Event) (s : State) : (pushEvent e s).pixout = s.pixout := rfl
@[simp] theorem pushEvent_rv (e : Event) (s : State) : (pushEvent e s).rv = s.rv := rfl
@[simp] theorem pushEvent_err (e : Event) (s : State) : (pushEvent e s).err = s.err := rfl
@[simp] theorem pushEvent_ecode (e : Event) (s : State) : (pushEvent e s).ecode = s.ecode := rfl
@[simp] theorem pushEvent_cw (e : Event) (s : State) : (pushEvent e s).cw = s.cw := rfl
@[simp] theorem pushEvent_ch (e : Event) (s : State) : (pushEvent e s).ch = s.ch := rfl
@[simp] theorem pushEvent_ibuf (e : Event) (s : State) : (pushEvent e s).ibuf = s.ibuf := rfl
@[simp] theorem pushEvent_rast (e : Event) (s : State) : (pushEvent e s).rast = s.rast := rfl
@[simp] theorem pushEvent_host (e : Event) (s : State) : (pushEvent e s).host = e :: s.host := rfl
@[simp] theorem pushEvent_responses (e : Event) (s : State) : (pushEvent e s).responses = s.responses := rfl
@[simp] theorem pushEvent_faults (e : Event) (s : State) : (pushEvent e s).faults = s.faults := rfl
@[simp] theorem pushEvent_draws (e : Event) (s : State) : (pushEvent e s).draws = s.draws := rfl

/-! ### decodeFrame: The pixel loop of DECODE (R106). -/

@[simp] theorem decodeFrame_geom (s : State) : (decodeFrame s).geom = s.geom := rfl
@[simp] theorem decodeFrame_len (s : State) : (decodeFrame s).len = s.len := rfl
@[simp] theorem decodeFrame_pixout (s : State) : (decodeFrame s).pixout = s.pixout := rfl
@[simp] theorem decodeFrame_rv (s : State) : (decodeFrame s).rv = s.rv := rfl
@[simp] theorem decodeFrame_err (s : State) : (decodeFrame s).err = s.err := rfl
@[simp] theorem decodeFrame_ecode (s : State) : (decodeFrame s).ecode = s.ecode := rfl
@[simp] theorem decodeFrame_cw (s : State) : (decodeFrame s).cw = s.cw := rfl
@[simp] theorem decodeFrame_ch (s : State) : (decodeFrame s).ch = s.ch := rfl
@[simp] theorem decodeFrame_ibuf (s : State) : (decodeFrame s).ibuf = s.ibuf := rfl
@[simp] theorem decodeFrame_rast (s : State) :
    (decodeFrame s).rast = putPixels s.rast (decodedPixels s.ibuf (npix s.geom) s.draws) := rfl
@[simp] theorem decodeFrame_host (s : State) : (decodeFrame s).host = s.host := rfl
@[simp] theorem decodeFrame_responses (s : State) : (decodeFrame s).responses = s.responses := rfl
@[simp] theorem decodeFrame_faults (s : State) : (decodeFrame s).faults = s.faults := rfl
@[simp] theorem decodeFrame_draws (s : State) : (decodeFrame s).draws = s.draws + ibytes s.geom := rfl

/-! ### moveRaster: The pixel loop of ROT270 and HFLIP (R121, R124). -/

@[simp] theorem moveRaster_geom (source : Nat → Nat) (s : State) : (moveRaster source s).geom = s.geom := rfl
@[simp] theorem moveRaster_len (source : Nat → Nat) (s : State) : (moveRaster source s).len = s.len := rfl
@[simp] theorem moveRaster_pixout (source : Nat → Nat) (s : State) : (moveRaster source s).pixout = s.pixout := rfl
@[simp] theorem moveRaster_rv (source : Nat → Nat) (s : State) : (moveRaster source s).rv = s.rv := rfl
@[simp] theorem moveRaster_err (source : Nat → Nat) (s : State) : (moveRaster source s).err = s.err := rfl
@[simp] theorem moveRaster_ecode (source : Nat → Nat) (s : State) : (moveRaster source s).ecode = s.ecode := rfl
@[simp] theorem moveRaster_cw (source : Nat → Nat) (s : State) : (moveRaster source s).cw = s.cw := rfl
@[simp] theorem moveRaster_ch (source : Nat → Nat) (s : State) : (moveRaster source s).ch = s.ch := rfl
@[simp] theorem moveRaster_ibuf (source : Nat → Nat) (s : State) : (moveRaster source s).ibuf = s.ibuf := rfl
@[simp] theorem moveRaster_rast (source : Nat → Nat) (s : State) :
    (moveRaster source s).rast = putPixels s.rast (movedPixels source (s.cw.toNat * s.ch.toNat)
      (readPixels s.rast (s.cw.toNat * s.ch.toNat) s.draws)) := rfl
@[simp] theorem moveRaster_host (source : Nat → Nat) (s : State) : (moveRaster source s).host = s.host := rfl
@[simp] theorem moveRaster_responses (source : Nat → Nat) (s : State) :
    (moveRaster source s).responses = s.responses := rfl
@[simp] theorem moveRaster_faults (source : Nat → Nat) (s : State) : (moveRaster source s).faults = s.faults := rfl
@[simp] theorem moveRaster_draws (source : Nat → Nat) (s : State) :
    (moveRaster source s).draws = s.draws + 3 * (s.cw.toNat * s.ch.toNat) := rfl

/-! ### Continuing from an outcome -/

@[simp] theorem onNext_next (f : State → State) (s : State) : onNext f (.next s) = .next (f s) := rfl

@[simp] theorem onNext_fault (f : State → State) (r : Fault) : onNext f (.fault r) = .fault r := rfl

@[simp] theorem onNext_refused (f : State → State) (r : Refusal) : onNext f (.refused r) = .refused r := rfl

end Sys2Proof.Laws
end

