-- ==== Sys2Proof/Laws/Commands.lean ====
section
/-! SUPPORT. What the commands' shared operations do: the size check, the pixel loops, the sources of the transforms, and
when two buffers in canonical form are equal. -/

namespace Sys2Proof.Laws

open Sys2Proof.Machine

/-! ### Equal buffers -/

/-- Two buffers in canonical form that read alike are equal. -/
theorem memory_ext {m m' : Memory} (h : m.wf) (h' : m'.wf) (hget : ∀ a, memGet m a = memGet m' a) : m = m' := by
  induction m generalizing m' with
  | nil =>
    cases m' with
    | nil => rfl
    | cons c m' => have := hget c.1; simp [memGet_cons] at this
  | cons c m ih =>
    obtain ⟨hc, hm⟩ := List.pairwise_cons.1 h
    cases m' with
    | nil => have := hget c.1; simp [memGet_cons] at this
    | cons c' m' =>
      obtain ⟨hc', hm'⟩ := List.pairwise_cons.1 h'
      have above : ∀ {l : Memory} {k a : Nat}, (∀ d ∈ l, k < d.1) → a ≤ k → memGet l a = none :=
        fun hl ha => memGet_eq_none fun d hd => by have := hl d hd; omega
      have key : c.1 = c'.1 := by
        rcases Nat.lt_trichotomy c.1 c'.1 with hlt | heq | hlt
        · have := hget c.1
          rw [memGet_cons, if_pos rfl, memGet_cons, if_neg (by omega), above hc' (by omega)] at this
          cases this
        · exact heq
        · have := hget c'.1
          rw [memGet_cons, if_neg (by omega), above hc (by omega), memGet_cons, if_pos rfl] at this
          cases this
      have val : c.2 = c'.2 := by
        have := hget c.1
        rw [memGet_cons, if_pos rfl, memGet_cons, if_pos key] at this
        exact Option.some.inj this
      have tail : m = m' := ih hm hm' fun a => by
        by_cases ha : a = c.1
        · rw [above hc (by omega), above hc' (by omega)]
        · have := hget a
          rwa [memGet_cons, if_neg ha, memGet_cons, if_neg (by omega)] at this
      rw [Prod.ext key val, tail]

/-- Pixel `k` and channel `j` of an offset inside a buffer of whole pixels. -/
theorem offset_split (a : Nat) : a = 3 * (a / 3) + a % 3 := by omega

/-- Buffers whose pixels below `n` and whose bytes from `3n` on read alike, read alike. -/
theorem memGet_eq_of_pixels {m m' : Memory} {n : Nat}
    (hp : ∀ k, k < n → memGet m (3 * k) = memGet m' (3 * k) ∧ memGet m (3 * k + 1) = memGet m' (3 * k + 1) ∧
      memGet m (3 * k + 2) = memGet m' (3 * k + 2))
    (ha : ∀ a, 3 * n ≤ a → memGet m a = memGet m' a) (a : Nat) : memGet m a = memGet m' a := by
  by_cases h : 3 * n ≤ a
  · exact ha a h
  · obtain ⟨h0, h1, h2⟩ := hp (a / 3) (by omega)
    have : a % 3 = 0 ∨ a % 3 = 1 ∨ a % 3 = 2 := by omega
    rcases this with h3 | h3 | h3
    · rw [show a = 3 * (a / 3) by omega]; exact h0
    · rw [show a = 3 * (a / 3) + 1 by omega]; exact h1
    · rw [show a = 3 * (a / 3) + 2 by omega]; exact h2

/-! ### Pixels -/

theorem pixelAt_putPixels (s : State) (m : Memory) (ps : List Pixel) {k : Nat} (hk : k < ps.length)
    (hs : s.rast = putPixels m ps) : pixelAt s k = writtenPixel ps[k] := by
  obtain ⟨hr, hg, hb⟩ := putPixels_pixel m ps hk
  simp [pixelAt, writtenPixel, hs, hr, hg, hb]

/-- Reading a pixel whose three bytes are written gives them, whichever draws stand by. -/
theorem writtenPixel_readPixel {s : State} {k d : Nat} (h0 : (memGet s.rast (3 * k)).isSome = true)
    (h1 : (memGet s.rast (3 * k + 1)).isSome = true) (h2 : (memGet s.rast (3 * k + 2)).isSome = true) :
    writtenPixel (readPixel s.rast k d) = pixelAt s k := by
  obtain ⟨r, hr⟩ := Option.isSome_iff_exists.1 h0
  obtain ⟨g, hg⟩ := Option.isSome_iff_exists.1 h1
  obtain ⟨b, hb⟩ := Option.isSome_iff_exists.1 h2
  simp [writtenPixel, readPixel, pixelAt, readByte_of_written hr, readByte_of_written hg, readByte_of_written hb,
    hr, hg, hb]

/-- With every byte of RAST written, reading pixel `k < NPIX` gives what the host sees there. -/
theorem readPixel_of_rasterWritten {s : State} (h : RasterWritten s) {k : Nat} (d : Nat) (hk : k < npix s.geom) :
    writtenPixel (readPixel s.rast k d) = pixelAt s k :=
  writtenPixel_readPixel (h _ (by unfold rbytes; omega)) (h _ (by unfold rbytes; omega))
    (h _ (by unfold rbytes; omega))

/-! ### The size check (R107) -/

theorem sizeOk_iff (g : Geometry) (len : Word) : sizeOk g len = true ↔ len.toNat = 2 * g.W.toNat * g.H.toNat := by
  unfold sizeOk
  simp only [Bool.and_eq_true, decide_eq_true_eq]
  refine ⟨fun h => h.2, fun h => ⟨?_, h⟩⟩
  rw [h, Nat.mul_assoc]; omega

theorem sizeOk_false_iff (g : Geometry) (len : Word) :
    sizeOk g len = false ↔ len.toNat ≠ 2 * g.W.toNat * g.H.toNat := by
  rw [← Bool.not_eq_true, sizeOk_iff]

/-! ### The commands as functions of the state -/

/-- `raise CmdError(code)` as one update (R172). -/
theorem raiseCmdError_eq (code : CmdErrorCode) (s : State) :
    raiseCmdError code s =
      { s with err := true, ecode := if s.err = true then s.ecode else ecodeOf code } := by
  unfold raiseCmdError
  cases s with
  | mk _ _ _ _ err _ _ _ _ _ _ _ _ _ => cases err <;> rfl

theorem runDecode_fail {s : State} (h : s.len.toNat ≠ 2 * s.geom.W.toNat * s.geom.H.toNat) :
    runDecode s = raiseCmdError .sizeMismatch (clearRaster s) := by
  rw [runDecode, if_pos ((sizeOk_false_iff _ _).2 h)]

theorem runDecode_ok {s : State} (h : s.len.toNat = 2 * s.geom.W.toNat * s.geom.H.toNat) :
    runDecode s = setRaster s.geom.W s.geom.H (decodeFrame s) := by
  rw [runDecode, if_neg (by rw [(sizeOk_iff _ _).2 h]; simp)]

theorem runRot270_fail {s : State} (h : s.rv = false) : runRot270 s = raiseCmdError .notReady s := by
  rw [runRot270, if_pos h]

theorem runRot270_ok {s : State} (h : s.rv = true) :
    runRot270 s = setRaster s.ch s.cw (moveRaster (rotSource s.cw.toNat s.ch.toNat) s) := by
  rw [runRot270, if_neg (by simp [h])]

theorem runHflip_fail {s : State} (h : s.rv = false) : runHflip s = raiseCmdError .notReady s := by
  rw [runHflip, if_pos h]

theorem runHflip_ok {s : State} (h : s.rv = true) : runHflip s = moveRaster (flipSource s.cw.toNat) s := by
  rw [runHflip, if_neg (by simp [h])]

theorem runConvert_fail {s : State} (h : s.len.toNat ≠ 2 * s.geom.W.toNat * s.geom.H.toNat) :
    runConvert s = runDecode s := by
  rw [runConvert, if_pos ((sizeOk_false_iff _ _).2 h)]

theorem runConvert_ok {s : State} (h : s.len.toNat = 2 * s.geom.W.toNat * s.geom.H.toNat) :
    runConvert s = runHflip (runRot270 (runDecode s)) := by
  rw [runConvert, if_neg (by rw [(sizeOk_iff _ _).2 h]; simp)]

/-! ### The draw numbers a command uses (R34, log entry 4) -/

theorem runDecode_draws {s : State} (h : s.len.toNat = 2 * s.geom.W.toNat * s.geom.H.toNat) :
    (runDecode s).draws = s.draws + 2 * (s.geom.W.toNat * s.geom.H.toNat) := by rw [runDecode_ok h]; rfl

theorem runRot270_draws {s : State} (h : s.rv = true) :
    (runRot270 s).draws = s.draws + 3 * (s.cw.toNat * s.ch.toNat) := by rw [runRot270_ok h]; rfl

theorem runHflip_draws {s : State} (h : s.rv = true) :
    (runHflip s).draws = s.draws + 3 * (s.cw.toNat * s.ch.toNat) := by rw [runHflip_ok h]; rfl

/-- CONVERT uses the numbers of its three commands, one after another. -/
theorem runConvert_draws {s : State} (h : s.len.toNat = 2 * s.geom.W.toNat * s.geom.H.toNat) :
    (runConvert s).draws = s.draws + 8 * (s.geom.W.toNat * s.geom.H.toNat) := by
  have hd : (runDecode s).rv = true ∧ (runDecode s).cw = s.geom.W ∧ (runDecode s).ch = s.geom.H := by
    rw [runDecode_ok h]; exact ⟨rfl, rfl, rfl⟩
  have hr : (runRot270 (runDecode s)).rv = true ∧ (runRot270 (runDecode s)).cw = s.geom.H ∧
      (runRot270 (runDecode s)).ch = s.geom.W := by
    rw [runRot270_ok hd.1]; exact ⟨rfl, hd.2.2, hd.2.1⟩
  rw [runConvert_ok h, runHflip_draws hr.1, hr.2.1, hr.2.2, runRot270_draws hd.1, hd.2.1, hd.2.2, runDecode_draws h,
    Nat.mul_comm s.geom.H.toNat]
  omega

/-- Pixel `k` after the pixel loop of a transform, where its source lies in the raster (R121, R124). -/
theorem pixelAt_moveRaster {source : Nat → Nat} {s : State} {k : Nat} (hk : k < s.cw.toNat * s.ch.toNat)
    (hs : source k < s.cw.toNat * s.ch.toNat) :
    pixelAt (moveRaster source s) k = writtenPixel (readPixel s.rast (source k) s.draws) := by
  rw [pixelAt_putPixels (moveRaster source s) s.rast _ (by simpa using hk) (moveRaster_rast source s),
    movedPixels_getElem, readPixels_getD _ _ hs]

/-- Pixel `k` after the pixel loop of DECODE (R106, R108). -/
theorem pixelAt_decodeFrame {s : State} {k : Nat} (hk : k < npix s.geom) :
    pixelAt (decodeFrame s) k = writtenPixel (dec565 (ibufWord s.ibuf k s.draws)) := by
  rw [pixelAt_putPixels (decodeFrame s) s.rast _ (by simpa using hk) (decodeFrame_rast s), decodedPixels_getElem]

/-! ### Where pixels come from -/

theorem pixel_lt {cw ch x y : Nat} (hx : x < cw) (hy : y < ch) : y * cw + x < cw * ch := by
  calc y * cw + x < y * cw + cw := by omega
    _ = (y + 1) * cw := by rw [Nat.succ_mul]
    _ ≤ ch * cw := Nat.mul_le_mul_right cw hy
    _ = cw * ch := Nat.mul_comm ch cw

theorem pixel_div {cw x y : Nat} (hx : x < cw) : (y * cw + x) / cw = y := by
  rw [Nat.mul_comm, Nat.mul_add_div (by omega), Nat.div_eq_of_lt hx, Nat.add_zero]

theorem pixel_mod {cw x y : Nat} (hx : x < cw) : (y * cw + x) % cw = x := by
  rw [Nat.mul_comm, Nat.mul_add_mod, Nat.mod_eq_of_lt hx]

/-- Every pixel number of a raster is that of one column and row (R33). -/
theorem exists_pixel {cw ch k : Nat} (hk : k < cw * ch) : ∃ x y, x < cw ∧ y < ch ∧ k = y * cw + x := by
  have hcw : 0 < cw := by rcases Nat.eq_zero_or_pos cw with rfl | h; · simp at hk
                          exact h
  refine ⟨k % cw, k / cw, Nat.mod_lt _ hcw, Nat.div_lt_of_lt_mul hk, ?_⟩
  rw [Nat.mul_comm]; exact (Nat.div_add_mod k cw).symm

/-- ROT270's source of output pixel `(x2, y2)` (R121). -/
theorem rotSource_pixel {cw ch x2 y2 : Nat} (hx : x2 < ch) :
    rotSource cw ch (y2 * ch + x2) = x2 * cw + (cw - 1 - y2) := by
  rw [rotSource, pixel_div hx, pixel_mod hx]

/-- HFLIP's source of output pixel `(x, y)` (R124). -/
theorem flipSource_pixel {cw x y : Nat} (hx : x < cw) :
    flipSource cw (y * cw + x) = y * cw + (cw - 1 - x) := by
  rw [flipSource, pixel_div hx, pixel_mod hx]

theorem rotSource_lt {cw ch k : Nat} (hk : k < cw * ch) : rotSource cw ch k < cw * ch := by
  obtain ⟨x, y, hx, hy, rfl⟩ := exists_pixel (Nat.mul_comm cw ch ▸ hk)
  rw [rotSource_pixel hx]; exact pixel_lt (by omega) hx

theorem flipSource_lt {cw ch k : Nat} (hk : k < cw * ch) : flipSource cw k < cw * ch := by
  obtain ⟨x, y, hx, hy, rfl⟩ := exists_pixel hk
  rw [flipSource_pixel hx]; exact pixel_lt (by omega) hy

/-- The dimensions of a valid raster multiply to `NPIX` (R29). -/
theorem dimsFit_area {s : State} (h : DimsFit s) : s.cw.toNat * s.ch.toNat = npix s.geom := by
  rcases h with ⟨hw, hh⟩ | ⟨hw, hh⟩ <;> rw [hw, hh]
  · rfl
  · exact Nat.mul_comm _ _

end Sys2Proof.Laws
end

