-- ==== Sys2Proof/Laws/Decode.lean ====
section
/-! SUPPORT. The fields of a command word (R81): reading back what `cmdWord` puts together, and that a word is its
three fields. -/

namespace Sys2Proof.Laws

@[simp] theorem cmdOp_cmdWord (imm : Half) (op : BitVec 4) : cmdOp (cmdWord imm op) = op := by
  apply BitVec.eq_of_getLsbD_eq
  intro i hi
  simp only [cmdOp, cmdWord, BitVec.getLsbD_extractLsb', BitVec.getLsbD_append]
  simp [hi]

@[simp] theorem cmdRsv_cmdWord (imm : Half) (op : BitVec 4) : cmdRsv (cmdWord imm op) = 0 := by
  apply BitVec.eq_of_getLsbD_eq
  intro i hi
  simp only [cmdRsv, cmdWord, BitVec.getLsbD_extractLsb', BitVec.getLsbD_append]
  rw [if_neg (by omega), if_pos (by omega)]
  simp

@[simp] theorem cmdImm_cmdWord (imm : Half) (op : BitVec 4) : cmdImm (cmdWord imm op) = imm := by
  apply BitVec.eq_of_getLsbD_eq
  intro i hi
  simp only [cmdImm, cmdWord, BitVec.getLsbD_extractLsb', BitVec.getLsbD_append]
  rw [if_neg (by omega), if_neg (by omega), show 16 + i - 4 - 12 = i by omega]
  simp [hi]

/-- A command word is its three fields (R81). -/
theorem cmd_fields_ext {c d : Word} (hop : cmdOp c = cmdOp d) (hrsv : cmdRsv c = cmdRsv d)
    (himm : cmdImm c = cmdImm d) : c = d := by
  apply BitVec.eq_of_getLsbD_eq
  intro i hi
  by_cases h4 : i < 4
  · simpa [cmdOp, h4] using congrArg (·.getLsbD i) hop
  · by_cases h16 : i < 16
    · simpa [cmdRsv, show i - 4 < 12 by omega, show 4 + (i - 4) = i by omega] using
        congrArg (·.getLsbD (i - 4)) hrsv
    · simpa [cmdImm, show i - 16 < 16 by omega, show 16 + (i - 16) = i by omega] using
        congrArg (·.getLsbD (i - 16)) himm

end Sys2Proof.Laws
end

