-- ==== Sys2Proof/Laws/HostBus.lean ====
section
/-! SUPPORT. What a step can do: the event it takes, the target of a transaction, and that `target` finds exactly the
legal transactions. -/

namespace Sys2Proof.Laws

open Sys2Proof.Machine

/-! ### Taking the next event -/

theorem step_idle {s : State} (h : s.host = []) : step s = .next s := by
  simp [step, takeEvent, h]

theorem step_event {s : State} {e : Event} {rest : List Event} (h : s.host = e :: rest) :
    step s = runEvent e { s with host := rest } := by
  simp [step, takeEvent, h]

/-! ### Targets -/

theorem sizeBytes_iff (size : BitVec 2) (n : Nat) : sizeBytes size = some n ↔
    (size = 0 ∧ n = 1) ∨ (size = 1 ∧ n = 2) ∨ (size = 2 ∧ n = 4) := by
  unfold sizeBytes
  split_ifs with h0 h1 h2
  · subst h0; simp [eq_comm]
  · subst h1; simp [eq_comm]
  · subst h2; simp [eq_comm]
  · refine ⟨fun h => (by cases h), fun h => ?_⟩
    rcases h with ⟨h, -⟩ | ⟨h, -⟩ | ⟨h, -⟩ <;> contradiction

theorem regAt_offset (r : Reg) : regAt (regOffset r) = some r := by cases r <;> rfl

theorem regAt_some {a : Nat} {r : Reg} (h : regAt a = some r) : a = regOffset r := by
  have h' := List.find?_some (p := fun r => regOffset r == a) h
  exact (beq_iff_eq.1 h').symm

theorem regAt_isSome_iff (a : Nat) :
    (regAt a).isSome = true ↔ a ∈ [0x00, 0x04, 0x08, 0x0C, 0x10, 0x14] := by
  constructor
  · intro h
    obtain ⟨r, hr⟩ := Option.isSome_iff_exists.1 h
    rw [regAt_some hr]
    cases r <;> decide
  · intro h
    simp only [List.mem_cons, List.not_mem_nil, or_false] at h
    rcases h with rfl | rfl | rfl | rfl | rfl | rfl <;> rfl

/-- What a target can be, and when: everything `targetAt` says (R152). -/
theorem targetAt_cases {g : Geometry} {kind : Kind} {a n : Nat} {x : Target} (h : targetAt g kind a n = some x) :
    a % n = 0 ∧
      ((∃ r, x = .reg r ∧ a = regOffset r ∧ n = 4) ∨
       (x = .ibuf (a - ibufBase) n ∧ ibufBase ≤ a ∧ a - ibufBase + n ≤ ibytes g) ∨
       (x = .rast (a - rastBase) n ∧ kind = .read ∧ rastBase ≤ a ∧ a - rastBase + n ≤ rbytes g)) := by
  unfold targetAt at h
  split_ifs at h with h1 h2 h3 h4
  · obtain ⟨r, hr⟩ := Option.isSome_iff_exists.1 h2.2
    rw [hr] at h
    simp only [Option.map_some, Option.some.injEq] at h
    exact ⟨by omega, .inl ⟨r, h.symm, regAt_some hr, h2.1⟩⟩
  · simp only [Option.some.injEq] at h
    exact ⟨by omega, .inr (.inl ⟨h.symm, h3⟩)⟩
  · simp only [Option.some.injEq] at h
    exact ⟨by omega, .inr (.inr ⟨h.symm, h4⟩)⟩

/-- `target` finds a target exactly for the legal transactions (R152). -/
theorem target_isSome_iff (g : Geometry) (t : Txn) : (target g t).isSome = true ↔ Legal g t := by
  unfold target Legal
  constructor
  · intro h
    rcases hs : sizeBytes t.size with _ | n
    · simp [hs] at h
    · rw [hs] at h
      obtain ⟨x, hx⟩ := Option.isSome_iff_exists.1 h
      refine ⟨n, (sizeBytes_iff _ _).1 hs, (targetAt_cases hx).1, ?_⟩
      rcases (targetAt_cases hx).2 with ⟨r, -, ha, hn⟩ | ⟨-, h1, h2⟩ | ⟨-, h1, h2, h3⟩
      · exact .inl ⟨(regAt_isSome_iff _).1 (by rw [ha, regAt_offset]; rfl), hn⟩
      · exact .inr (.inl ⟨h1, by rw [Nat.mul_assoc]; exact h2⟩)
      · exact .inr (.inr ⟨h1, h2, by rw [Nat.mul_assoc]; exact h3⟩)
  · rintro ⟨n, hs, hm, h⟩
    rw [(sizeBytes_iff _ _).2 hs]
    simp only [targetAt, ← regAt_isSome_iff, Nat.mul_assoc] at h ⊢
    rw [if_neg (by omega)]
    split_ifs with h2 h3 h4
    · simpa using h2.2
    · rfl
    · rfl
    · rcases h with h | h | h
      · exact absurd ⟨h.2, h.1⟩ h2
      · exact absurd h h3
      · exact absurd h h4

theorem target_eq_none_iff (g : Geometry) (t : Txn) : target g t = none ↔ ¬ Legal g t := by
  rw [← target_isSome_iff]; cases target g t <;> simp

/-- An aligned 32-bit transaction at a register's offset acts on that register (R56, R152). -/
theorem target_reg (g : Geometry) (kind : Kind) (r : Reg) (v : Word) :
    target g ⟨kind, BitVec.ofNat 19 (regOffset r), 2, v⟩ = some (.reg r) := by
  cases r <;> simp [target, sizeBytes, targetAt, regAt, regOffset]

/-- A CMD write runs its word as a command and then answers `ok(0)` (R140, R142). -/
theorem step_cmdWrite {s : State} {c : Word} {rest : List Event} (h : s.host = .txn (cmdWrite c) :: rest) :
    step s = onNext (respond (.ok 0)) (runCommand c { s with host := rest }) := by
  rw [step_event h]
  simp only [runEvent, transact]
  rw [show target _ (cmdWrite c) = some (.reg .cmd) from target_reg _ .write .cmd c]
  rfl

/-! ### What one step can do -/

/-- The four shapes of a completed event, by the state it leaves: everything one step can do. -/
theorem transact_cases {x : Txn} {s t : State} (h : transact x s = .next t) :
    (target s.geom x = none ∧ t = busError x s) ∨
    (∃ r, target s.geom x = some (.reg r) ∧ x.kind = .read ∧ t = hostReadReg r s) ∨
    (∃ r u, target s.geom x = some (.reg r) ∧ x.kind = .write ∧ writeRegEffect r x.wdata s = .next u ∧
      t = respond (.ok 0) u) ∨
    (∃ a n, target s.geom x = some (.ibuf a n) ∧ x.kind = .read ∧ t = hostRead s.ibuf a n s) ∨
    (∃ a n, target s.geom x = some (.ibuf a n) ∧ x.kind = .write ∧ t = hostWriteIbuf a n x.wdata s) ∨
    (∃ a n, target s.geom x = some (.rast a n) ∧ x.kind = .read ∧ t = hostRead s.rast a n s) := by
  unfold transact at h
  rcases ht : target s.geom x with _ | (r | ⟨a, n⟩ | ⟨a, n⟩) <;> rcases hk : x.kind with _ | _ <;>
    simp only [ht, hk] at h
  · exact .inl ⟨rfl, by injection h with h; exact h.symm⟩
  · exact .inl ⟨rfl, by injection h with h; exact h.symm⟩
  · exact .inr (.inl ⟨r, rfl, rfl, by injection h with h; exact h.symm⟩)
  · rw [writeReg] at h
    rcases hw : writeRegEffect r x.wdata s with u | u | u
    · rw [hw, onNext_next] at h
      exact .inr (.inr (.inl ⟨r, u, rfl, rfl, hw, by injection h with h; exact h.symm⟩))
    · rw [hw, onNext_fault] at h; cases h
    · rw [hw, onNext_refused] at h; cases h
  · exact .inr (.inr (.inr (.inl ⟨a, n, rfl, rfl, by injection h with h; exact h.symm⟩)))
  · exact .inr (.inr (.inr (.inr (.inl ⟨a, n, rfl, rfl, by injection h with h; exact h.symm⟩))))
  · exact .inr (.inr (.inr (.inr (.inr ⟨a, n, rfl, rfl, by injection h with h; exact h.symm⟩))))
  · unfold target at ht
    split at ht
    · cases ht
    · rcases (targetAt_cases ht).2 with ⟨r, h1, -⟩ | ⟨h1, -⟩ | ⟨-, h1, -⟩
      · cases h1
      · cases h1
      · rw [hk] at h1; cases h1

/-- The effects of a register write (R154). -/
theorem writeRegEffect_cases {r : Reg} {v : Word} {s u : State} (h : writeRegEffect r v s = .next u) :
    ((r = .geom ∨ r = .pixout ∨ r = .rdim) ∧ u = s) ∨
    (r = .cmd ∧ ∃ why, decode v = .illegal why ∧ u = raiseCmdError .illegalCmd s) ∨
    (r = .cmd ∧ ∃ i, decode v = .ok i ∧ exec i s = .next u) ∨
    (r = .status ∧ u = writeStatus v s) ∨ (r = .len ∧ u = { s with len := v }) := by
  cases r <;> simp only [writeRegEffect] at h
  · injection h with h; simp [h]
  · unfold runCommand at h
    split at h
    · rename_i why hd; injection h with h; exact .inr (.inl ⟨rfl, why, hd, h.symm⟩)
    · rename_i i hd; exact .inr (.inr (.inl ⟨rfl, i, hd, h⟩))
  · injection h with h; simp [h]
  · injection h with h; simp [h]
  · injection h with h; simp [h]
  · injection h with h; simp [h]

end Sys2Proof.Laws
end

