-- ==== Sys2Proof/Laws/HostProgram.lean ====
section
/-! SUPPORT. What a line of a host program comes to: its address, its width, its transaction and the response it
expects. -/

namespace Sys2Proof.Laws

open Sys2Proof.Machine

/-- The offset of an address is the one R88 gives it. -/
theorem addrOffset_of_means {addr : HostAddr} {x : Nat} (h : AddrMeans addr x) : addrOffset addr = x := by
  unfold AddrMeans at h
  rcases h with ⟨rfl, rfl⟩ | ⟨rfl, rfl⟩ | ⟨rfl, rfl⟩ | ⟨rfl, rfl⟩ | ⟨rfl, rfl⟩ | ⟨rfl, rfl⟩ | ⟨a, rfl, rfl⟩ |
    ⟨a, rfl, rfl⟩ | ⟨a, rfl, rfl⟩ <;> rfl

/-- The size code of a width is the one R150 gives its bytes. -/
theorem widthCode_of_means {w : Width} {size : BitVec 2} (h : WidthMeans w size) : widthCode w = size := by
  unfold WidthMeans at h
  rcases h with ⟨rfl, rfl⟩ | ⟨rfl, rfl⟩ | ⟨rfl, rfl⟩ <;> rfl

/-- The transaction of a line inside the window and the bus. -/
theorem lineTxn_some (kind : Kind) (w : Width) {addr : HostAddr} {v : Nat} (hx : addrOffset addr < 0x80000)
    (hv : v < 2 ^ 32) :
    lineTxn kind w addr v = some ⟨kind, BitVec.ofNat 19 (addrOffset addr), widthCode w, BitVec.ofNat 32 v⟩ :=
  if_pos ⟨hx, hv⟩

/-- A line outside the window or the bus issues nothing (log entry 13). -/
theorem lineTxn_none (kind : Kind) (w : Width) {addr : HostAddr} {v : Nat}
    (h : 0x80000 ≤ addrOffset addr ∨ 2 ^ 32 ≤ v) : lineTxn kind w addr v = none :=
  if_neg (by omega)

theorem expectedResponse_some {v : Nat} (h : v < 2 ^ 32) : expectedResponse v = some (.ok (BitVec.ofNat 32 v)) :=
  if_pos h

/-- No response is expected of a line whose expected result does not fit the bus (log entry 13). -/
theorem expectedResponse_none {v : Nat} (h : 2 ^ 32 ≤ v) : expectedResponse v = none := if_neg (by omega)

end Sys2Proof.Laws
end

