-- ==== Sys2Proof/Laws/PerInstr.lean ====
section
/-! SUPPORT. The per-instruction family MatchesTable: the encoding of every command, whatever its operand, agrees with
its row of spec/opcode_table.json. -/

namespace Sys2Proof.Laws.MatchesTable

/-- The "match" and "mask" of a command's row in spec/opcode_table.json. -/
def row : Instr → Word × Word
  | .nop => (0x00000000, 0xFFFFFFFF)
  | .pixel _ => (0x00000001, 0x0000FFFF)
  | .decode => (0x00000002, 0xFFFFFFFF)
  | .rot270 => (0x00000003, 0xFFFFFFFF)
  | .hflip => (0x00000004, 0xFFFFFFFF)
  | .convert => (0x00000005, 0xFFFFFFFF)

/-- The command is well formed, and its word agrees with its row: the fixed bits are the row's, and the field imm16,
where the row has one, is the operand (R83, R86). -/
def Statement (i : Instr) : Prop :=
  i.WellFormed = true ∧ encode i &&& (row i).2 = (row i).1 ∧
    (∀ w, i = .pixel w → (encode i).extractLsb' 16 16 = w)

theorem nop : Statement .nop := ⟨by decide, by decide, fun _ h => by cases h⟩

theorem pixel (imm16 : Half) : Statement (.pixel imm16) := by
  refine ⟨?_, ?_, fun w h => ?_⟩
  · have := imm16.isLt
    simp [Instr.WellFormed, Instr.mnemonic, Instr.operands, Mnemonic.operandsOk]
    omega
  · apply cmd_fields_ext
    · have h : cmdOp (encode (.pixel imm16) &&& 0x0000FFFF) = cmdOp (encode (.pixel imm16)) &&& 0xF :=
        BitVec.extractLsb'_and ..
      rw [row, h]; simp [encode]; decide
    · have h : cmdRsv (encode (.pixel imm16) &&& 0x0000FFFF) = cmdRsv (encode (.pixel imm16)) &&& 0xFFF :=
        BitVec.extractLsb'_and ..
      rw [row, h]; simp [encode]; decide
    · have h : cmdImm (encode (.pixel imm16) &&& 0x0000FFFF) = cmdImm (encode (.pixel imm16)) &&& 0 :=
        BitVec.extractLsb'_and ..
      rw [row, h]; simp; decide
  · injection h with h
    rw [← h]
    exact cmdImm_cmdWord imm16 0x1

theorem decode : Statement .decode := ⟨by decide, by decide, fun _ h => by cases h⟩

theorem rot270 : Statement .rot270 := ⟨by decide, by decide, fun _ h => by cases h⟩

theorem hflip : Statement .hflip := ⟨by decide, by decide, fun _ h => by cases h⟩

theorem convert : Statement .convert := ⟨by decide, by decide, fun _ h => by cases h⟩

end Sys2Proof.Laws.MatchesTable
end

