-- ==== Sys2Proof/Tests/Slice0.lean ====
section
/-! SUPPORT. Tests of the model and witnesses of the statements' hypotheses. Expected results come from
spec/95_test_vectors.md (A, B, C tables, named in each comment) or from the rule named there. -/

namespace Sys2Proof.Tests.Slice0

open Sys2Proof.Machine

/-! ### Small states -/

/-- The 3x2 build of the test vectors. -/
def g32 : Geometry := ⟨3, 2⟩

/-- The input bytes of B3. -/
def frameBytes : List Byte := [0x00, 0xF8, 0xE0, 0x07, 0x1F, 0x00, 0xFF, 0xFF, 0x00, 0x00, 0x10, 0x84]

/-- The decoded raster of B3. -/
def rasterBytes : List Byte :=
  [0xF8, 0x00, 0x00, 0x00, 0xFC, 0x00, 0x00, 0x00, 0xF8, 0xF8, 0xFC, 0xF8, 0x00, 0x00, 0x00, 0x80, 0x80, 0x80]

/-- The 3x2 build with B3's input in IBUF and its length in LEN. -/
def frame32 : State := { State.resetOf g32 with len := 12, ibuf := memPutBytes [] 0 frameBytes }

/-- The 3x2 build after B3's DECODE. -/
def raster32 : State := { frame32 with rv := true, cw := 3, ch := 2, rast := memPutBytes [] 0 rasterBytes }

/-- The 1x1 build of B7, with input bytes CD AB. -/
def frame11 : State := { State.resetOf ⟨1, 1⟩ with len := 2, ibuf := memPutBytes [] 0 [0xCD, 0xAB] }

/-- The next state of an outcome, if it is one. -/
def nextState : Host.Outcome State Fault Refusal → Option State
  | .next s => some s
  | .fault _ => none
  | .refused _ => none

/-- What `f` shows of the next state. -/
def after {α : Type} (o : Host.Outcome State Fault Refusal) (f : State → α) : Option α := (nextState o).map f

/-- The written bytes of RAST, STATUS and RDIM. -/
def rasterView (s : State) : List Byte × Word × Word := (s.rast.map (·.2), statusWord s, rdimWord s)

/-- One transaction on a state: the last response and STATUS. -/
def oneTxn (kind : Kind) (addr : BitVec 19) (size : BitVec 2) (v : Word) (s : State) : Option (Option Response × Word) :=
  after (step (pushEvent (.txn ⟨kind, addr, size, v⟩) s)) fun t => (t.responses.getLast?, statusWord t)

/-! ### Well-formedness: an ill-formed term for each check -/

theorem test_geometry_wf : Config.geometry.WellFormed = true := by decide
theorem test_geometry_zero_width : (⟨0, 320⟩ : Geometry).WellFormed = false := by decide
theorem test_geometry_zero_height : (⟨170, 0⟩ : Geometry).WellFormed = false := by decide
theorem test_geometry_too_large : (⟨65535, 2⟩ : Geometry).WellFormed = false := by decide
theorem test_instr_wf : (Instr.pixel 0xFFFF).WellFormed = true := by decide
theorem test_pixel_operand_out_of_range : Mnemonic.PIXEL.operandsOk [0x10000] = false := by decide
theorem test_pixel_operand_missing : Mnemonic.PIXEL.operandsOk [] = false := by decide
theorem test_pixel_two_operands : Mnemonic.PIXEL.operandsOk [1, 2] = false := by decide
theorem test_nop_operand : Mnemonic.NOP.operandsOk [0] = false := by decide
theorem test_decode_operand : Mnemonic.DECODE.operandsOk [0] = false := by decide
theorem test_rot270_operand : Mnemonic.ROT270.operandsOk [0] = false := by decide
theorem test_hflip_operand : Mnemonic.HFLIP.operandsOk [0] = false := by decide
theorem test_convert_operand : Mnemonic.CONVERT.operandsOk [0] = false := by decide

/-! ### Decoding: words written out from R86 and B2 -/

theorem test_decode_nop : decode 0b00000000000000000000000000000000#32 = .ok .nop := by decide
theorem test_decode_pixel : decode 0b11111000000000000000000000000001#32 = .ok (.pixel 0xF800) := by decide
theorem test_decode_pixel_low : decode 0b00000000000000010000000000000001#32 = .ok (.pixel 0x0001) := by decide
theorem test_decode_decode : decode 0b00000000000000000000000000000010#32 = .ok .decode := by decide
theorem test_decode_rot270 : decode 0b00000000000000000000000000000011#32 = .ok .rot270 := by decide
theorem test_decode_hflip : decode 0b00000000000000000000000000000100#32 = .ok .hflip := by decide
theorem test_decode_convert : decode 0b00000000000000000000000000000101#32 = .ok .convert := by decide
theorem test_decode_op6 : decode 0x00000006#32 = .illegal .reservedOp := by decide
theorem test_decode_opF : decode 0x0000000F#32 = .illegal .reservedOp := by decide
theorem test_decode_rsv_low : decode 0x00000010#32 = .illegal .rsvNotZero := by decide
theorem test_decode_rsv_pixel : decode 0x0000FFF1#32 = .illegal .rsvNotZero := by decide
theorem test_decode_imm_nop : decode 0x00010000#32 = .illegal .immNotZero := by decide
theorem test_decode_imm_convert : decode 0x80000005#32 = .illegal .immNotZero := by decide
theorem test_encode_pixel : encode (.pixel 0xABCD) = 0xABCD0001 := by decide
theorem test_tableWord : decodeTableWord 32 0x12340001 = some (.pixel 0x1234) := by decide
theorem test_tableWord_illegal : decodeTableWord 32 7 = none := by decide

/-! ### The commands (B1, B3 to B8) -/

theorem test_pixel_mixed : after (exec (.pixel 0x1234) State.reset) (readReg · .pixout) = some 0x001044A0 := by decide
theorem test_pixel_abcd : after (exec (.pixel 0xABCD) State.reset) (readReg · .pixout) = some 0x00A87868 := by decide

/-- B8: NOP does not clear the error. -/
theorem test_nop_keeps_error :
    after (exec .nop { State.reset with err := true, ecode := 3 }) statusWord = some 0x00000032 := by decide

/-- B3: the 3x2 frame. -/
theorem test_decode_frame : after (exec .decode frame32) rasterView = some (rasterBytes, 0x00000001, 0x00020003) := by
  decide

/-- A7: LEN = 100 in the 170x320 build. -/
theorem test_decode_mismatch :
    after (exec .decode { State.reset with len := 100 }) rasterView = some ([], 0x00000012, 0x00000000) := by decide

/-- B4: the 3x2 raster, `[[p2, p5], [p1, p4], [p0, p3]]`. -/
theorem test_rot270 : after (exec .rot270 raster32) rasterView =
    some ([0x00, 0x00, 0xF8, 0x80, 0x80, 0x80, 0x00, 0xFC, 0x00, 0x00, 0x00, 0x00, 0xF8, 0x00, 0x00, 0xF8, 0xFC, 0xF8],
      0x00000001, 0x00030002) := by decide

/-- B4: no raster after reset. -/
theorem test_rot270_not_ready :
    after (exec .rot270 State.reset) rasterView = some ([], 0x00000032, 0x00000000) := by decide

/-- B5: the 3x2 raster, `[[p2, p1, p0], [p5, p4, p3]]`. -/
theorem test_hflip : after (exec .hflip raster32) rasterView =
    some ([0x00, 0x00, 0xF8, 0x00, 0xFC, 0x00, 0xF8, 0x00, 0x00, 0x80, 0x80, 0x80, 0x00, 0x00, 0x00, 0xF8, 0xFC, 0xF8],
      0x00000001, 0x00020003) := by decide

/-- B5: no raster after reset. -/
theorem test_hflip_not_ready :
    after (exec .hflip State.reset) rasterView = some ([], 0x00000032, 0x00000000) := by decide

/-- B7: the 3x2 frame, `[[p5, p2], [p4, p1], [p3, p0]]`. -/
theorem test_convert : after (exec .convert frame32) rasterView =
    some ([0x80, 0x80, 0x80, 0x00, 0x00, 0xF8, 0x00, 0x00, 0x00, 0x00, 0xFC, 0x00, 0xF8, 0xFC, 0xF8, 0xF8, 0x00, 0x00],
      0x00000001, 0x00030002) := by decide

/-- B7: the 1x1 build. -/
theorem test_convert_one_pixel :
    after (exec .convert frame11) rasterView = some ([0xA8, 0x78, 0x68], 0x00000001, 0x00010001) := by decide

/-! ### The bus (B9, B10), reset and the placed command -/

theorem test_read_geom : oneTxn .read 0x00 2 0 State.reset = some (some (.ok 0x014000AA), 0) := by decide
theorem test_read_unmapped : oneTxn .read 0x18 2 0 State.reset = some (some .buserr, 0) := by decide
theorem test_narrow_register : oneTxn .write 0x08 0 2 { State.reset with err := true, ecode := 3 } =
    some (some .buserr, 0x32) := by decide
theorem test_status_clear : oneTxn .write 0x08 2 0x2 { raster32 with err := true, ecode := 3 } =
    some (some (.ok 0), 0x01) := by decide
theorem test_status_bit1_zero : oneTxn .write 0x08 2 0xFFFFFFFD { raster32 with err := true, ecode := 3 } =
    some (some (.ok 0), 0x33) := by decide
theorem test_illegal_word : oneTxn .write 0x04 2 0x00010002 State.reset = some (some (.ok 0), 0x22) := by decide
theorem test_input_misaligned : oneTxn .write 0x20001 1 0 State.reset = some (some .buserr, 0) := by decide
theorem test_input_read : oneTxn .read 0x20002 1 0 frame32 = some (some (.ok 0x07E0), 0) := by decide
theorem test_raster_read : oneTxn .read 0x40000 2 0 raster32 = some (some (.ok 0x000000F8), 1) := by decide
theorem test_raster_past_end : oneTxn .read 0x40010 2 0 raster32 = some (some .buserr, 1) := by decide
theorem test_raster_last_half : oneTxn .read 0x40010 1 0 raster32 = some (some (.ok 0x8080), 1) := by decide
theorem test_raster_write : oneTxn .write 0x40000 0 0 raster32 = some (some .buserr, 1) := by decide
theorem test_size_code_3 : oneTxn .read 0x00 3 0 State.reset = some (some .buserr, 0) := by decide

/-- B10, first row of the byte-order table: `wr32 IBUF+0, 0x07E0F800`. -/
theorem test_input_write :
    after (step (pushEvent (.txn ⟨.write, 0x20000, 2, 0x07E0F800⟩) State.reset)) (·.ibuf) =
      some [(0, 0x00), (1, 0xF8), (2, 0xE0), (3, 0x07)] := by decide

/-- R190. -/
theorem test_reset_event : nextState (step (pushEvent .reset raster32)) = some (State.resetOf g32) := by decide

/-- R191: no response to the abandoned CMD write, and no raster. -/
theorem test_reset_during_command :
    nextState (step (pushEvent (.resetDuringCmd 5) raster32)) = some (State.resetOf g32) := by decide

/-- A3 through `withFetchWord`. -/
theorem test_placed_command :
    after (step (State.reset.withFetchWord 32 0xF8000001)) (fun s => (readReg s .pixout, s.responses)) =
      some (0x00F80000, [.ok 0]) := by decide

/-- An idle step changes nothing. -/
theorem test_idle : nextState (step raster32) = some raster32 := by decide

/-! ### The assembler (R87, R88, R89) -/

theorem test_line_pixel : assemble ["PIXEL 0xF800 ; red"] = some [⟨.write, 0x04, 2, 0xF8000001⟩] := by decide
theorem test_line_pixel_range : assemble ["PIXEL 0x10000"] = none := by decide
theorem test_line_nop_operand : assemble ["NOP 0"] = none := by decide
theorem test_line_read : parseLine "rd32 RAST+0 -> 0x00808080" = some (.rdExpect (.buf .rast 0) 0x808080) := by decide
/-- R88 is silent on an expected result over 32 bits; the model refuses the line (log entry 13). -/
theorem test_line_expect_range :
    assemble ["rd32 LEN -> 0x100000000"] = none ∧ expected (.rdExpect (.reg .len) 0xFFFFFFFF) = some (.ok 0xFFFFFFFF) := by
  decide
theorem test_line_getpx : assemble ["GETPX 3"] =
    some [⟨.read, 0x40009, 0, 0⟩, ⟨.read, 0x4000A, 0, 0⟩, ⟨.read, 0x4000B, 0, 0⟩] := by decide
theorem test_line_fill : assemble ["", "FILL32 IBUF+4, 7, 2"] =
    some [⟨.write, 0x20004, 2, 7⟩, ⟨.write, 0x20008, 2, 7⟩] := by decide
theorem test_line_putpx : assemble ["PUTPX 1, 0x07E0", "CLRERR", "SETLEN 12"] =
    some [⟨.write, 0x20002, 1, 0x07E0⟩, ⟨.write, 0x08, 2, 2⟩, ⟨.write, 0x0C, 2, 12⟩] := by decide

/-! ### Witnesses: a concrete state and operands that meet each statement's hypotheses -/

theorem raster32_inv : raster32.Inv where
  geom := by decide
  ibufForm := by decide
  ibufWithin := by decide
  rastForm := by decide
  rastWithin := by decide
  errCode := by decide
  codeKnown := by decide
  noRaster := by decide
  dims := fun _ => .inl (by decide)
  written := fun _ => by unfold RasterWritten; decide
  faultsCounted := by decide

theorem frame32_inv : frame32.Inv where
  geom := by decide
  ibufForm := by decide
  ibufWithin := by decide
  rastForm := by decide
  rastWithin := by decide
  errCode := by decide
  codeKnown := by decide
  noRaster := by decide
  dims := fun h => by cases h
  written := fun h => by cases h
  faultsCounted := by decide

/-- A state with one CMD write to come. -/
def cmdState (c : Word) (s : State) : State := pushEvent (.txn (cmdWrite c)) s

theorem legal_of_target {g : Geometry} {t : Txn} (h : (target g t).isSome = true) : Legal g t :=
  (Laws.target_isSome_iff g t).1 h

theorem witness_ResetMeetsInv : g32.WellFormed = true := by decide
theorem witness_StepKeepsInv : raster32.Inv ∧ ∃ t, step raster32 = .next t := ⟨raster32_inv, _, rfl⟩
theorem witness_ReachableStatesMeetInv : Reachable { State.resetOf g32 with host := [.reset] } :=
  .start g32 (by decide) [.reset]
theorem witness_CmdWriteRunsDecodedCommand :
    (cmdState 5 frame32).host = .txn (cmdWrite 5) :: [] ∧ decode 5 = .ok .convert ∧
      (cmdState 6 frame32).host = .txn (cmdWrite 6) :: [] ∧ decode 6 = .illegal .reservedOp := by decide
theorem witness_PlacedCommandIsRun : decodeTableWord 32 0xFFFF0001 = some (.pixel 0xFFFF) := by decide
theorem witness_EveryStepCompletesOneEvent :
    (cmdState 5 frame32).host = .txn (cmdWrite 5) :: [] ∧ raster32.host = [] := ⟨rfl, rfl⟩
theorem witness_DecodeOfEncode : Instr.convert.WellFormed = true ∧ (Instr.pixel 0xFFFF).WellFormed = true := by decide
theorem witness_EncodeOfDecode : decode 0xFFFF0001 = .ok (.pixel 0xFFFF) := by decide
theorem witness_IllegalWordsExactly :
    (cmdState 0x10 raster32).host = .txn (cmdWrite 0x10) :: [] ∧ decode 0x10 = .illegal .rsvNotZero ∧
      6 ≤ ((6 : Word).extractLsb' 0 4).toNat ∧ (0x10 : Word).extractLsb' 4 12 ≠ 0 ∧
      ((0x00010000 : Word).extractLsb' 16 16 ≠ 0 ∧ (0x00010000 : Word).extractLsb' 0 4 ≠ 1) := by decide
theorem witness_Dec565LosesNoBit : dec565 0xFFFF = dec565 0xFFFF := rfl
theorem witness_PixelCommand :
    (0x0000FFF1 : Word).extractLsb' 0 4 = 1 ∧ (0x0000FFF1 : Word).extractLsb' 4 12 ≠ 0 := by decide
theorem witness_NopCommand : (0x00010000 : Word).extractLsb' 0 4 = 0x0 ∧ (0x00010000 : Word).extractLsb' 16 16 ≠ 0 ∧
    (0x00000010 : Word).extractLsb' 0 4 = 0x0 ∧ (0x00000010 : Word).extractLsb' 4 12 ≠ 0 := by decide
theorem witness_DecodeCommand :
    (frame32.len.toNat % 2 = 0 ∧ frame32.len.toNat = 2 * frame32.geom.W.toNat * frame32.geom.H.toNat) ∧
      5 < frame32.geom.W.toNat * frame32.geom.H.toNat ∧ 3 * (frame32.geom.W.toNat * frame32.geom.H.toNat) ≤ 18 ∧
      State.reset.len.toNat ≠ 2 * State.reset.geom.W.toNat * State.reset.geom.H.toNat ∧
      ({ frame32 with len := 13 } : State).len.toNat % 2 ≠ 0 ∧
      (0x00010002 : Word).extractLsb' 0 4 = 0x2 ∧ (0x00010002 : Word).extractLsb' 16 16 ≠ 0 := by decide
theorem witness_SizeMismatchWritesNoPixel :
    ({ frame32 with len := 14 } : State).len.toNat / 2 ≠ g32.W.toNat * g32.H.toNat ∧
      ({ frame32 with len := 13 } : State).len.toNat % 2 ≠ 0 ∧
      ({ frame32 with len := 14 } : State).err = false := by decide
theorem witness_PixelWordIsLittleEndian :
    ReadsAs frame32.ibuf (2 * 5) (0 + 2 * 5) 0x10 ∧ ReadsAs frame32.ibuf (2 * 5 + 1) (0 + 2 * 5 + 1) 0x84 ∧
      ReadsAs [] (2 * 5) (0 + 2 * 5) (Config.draw 10) := by
  have h : memGet frame32.ibuf (2 * 5) = some 0x10 := by decide
  have h' : memGet frame32.ibuf (2 * 5 + 1) = some 0x84 := by decide
  exact ⟨⟨by simp [h], by simp [h]⟩, ⟨by simp [h'], by simp [h']⟩, ⟨by simp, fun _ => rfl⟩⟩
theorem witness_DecodedChannelsHaveLowBitsZero :
    frame32.len.toNat = 2 * frame32.geom.W.toNat * frame32.geom.H.toNat ∧ exec .decode frame32 = .next (runDecode frame32) ∧
      5 < frame32.geom.W.toNat * frame32.geom.H.toNat := ⟨by decide, rfl, by decide⟩
theorem witness_Rot270Command :
    raster32.rv = true ∧ 2 < raster32.cw.toNat ∧ 1 < raster32.ch.toNat ∧ State.reset.rv = false ∧
      3 * (raster32.cw.toNat * raster32.ch.toNat) ≤ 18 ∧ (0x00010003 : Word).extractLsb' 0 4 = 0x3 ∧
      (0x00010003 : Word).extractLsb' 16 16 ≠ 0 := by decide
theorem witness_HflipCommand :
    raster32.rv = true ∧ 1 < raster32.ch.toNat ∧ 2 < raster32.cw.toNat ∧ State.reset.rv = false ∧
      3 * (raster32.cw.toNat * raster32.ch.toNat) ≤ 18 ∧ (0x00010004 : Word).extractLsb' 0 4 = 0x4 ∧
      (0x00010004 : Word).extractLsb' 16 16 ≠ 0 := by decide
/-- The hypotheses of TransformsMoveWrittenPixels, RotateThenMirrorIsAntiTranspose, MirrorThenRotateIsTranspose,
MirrorTwiceIsIdentity, FourRotationsAreIdentity and SourceTransformIsItsOwnInverse. -/
theorem witness_transforms : raster32.Inv ∧ raster32.rv = true ∧ 2 < raster32.cw.toNat ∧ 1 < raster32.ch.toNat :=
  ⟨raster32_inv, rfl, by decide, by decide⟩
theorem witness_TransformsPermutePixels :
    raster32.Inv ∧ raster32.rv = true ∧ exec .rot270 raster32 = .next (runRot270 raster32) ∧
      exec .hflip raster32 = .next (runHflip raster32) := ⟨raster32_inv, rfl, rfl, rfl⟩
theorem witness_ConvertIsThePipeline :
    frame32.len.toNat = 2 * frame32.geom.W.toNat * frame32.geom.H.toNat ∧
      State.reset.len.toNat ≠ 2 * State.reset.geom.W.toNat * State.reset.geom.H.toNat ∧
      (0x80000005 : Word).extractLsb' 0 4 = 0x5 ∧ (0x80000005 : Word).extractLsb' 16 16 ≠ 0 := by decide
theorem witness_ConvertClosedForm :
    frame32.len.toNat = 2 * frame32.geom.W.toNat * frame32.geom.H.toNat ∧
      5 < frame32.geom.W.toNat * frame32.geom.H.toNat ∧ 3 * (frame32.geom.W.toNat * frame32.geom.H.toNat) ≤ 18 := by decide
theorem witness_ConvertIgnoresTheOldRaster :
    frame32.len.toNat = 2 * frame32.geom.W.toNat * frame32.geom.H.toNat ∧
      exec .convert frame32 = .next (runConvert frame32) ∧ 17 < rbytes frame32.geom := ⟨by decide, rfl, by decide⟩
theorem witness_RepeatedConversionGivesTheSame :
    frame32.Inv ∧ InputWritten frame32 ∧ exec .convert frame32 = .next (runConvert frame32) ∧
      exec .decode frame32 = .next (runDecode frame32) :=
  ⟨frame32_inv, by unfold InputWritten; decide, rfl, rfl⟩
theorem witness_FirstErrorIsKept :
    (cmdState 7 { raster32 with err := true, ecode := 2 }).err = true ∧
      (cmdState 7 { raster32 with err := true, ecode := 2 }).host = .txn (cmdWrite 7) :: [] := by decide
theorem witness_RecordedCodeNamesTheGuard :
    State.reset.err = false ∧ State.reset.ecode = 0 ∧ exec .hflip State.reset = .next (runHflip State.reset) :=
  ⟨rfl, rfl, rfl⟩
theorem witness_CommandErrorsArePrecise :
    State.reset.err = false ∧ exec .decode State.reset = .next (runDecode State.reset) ∧
      (runDecode State.reset).err = true ∧ (cmdState 6 raster32).err = false ∧ decode 6 = .illegal .reservedOp ∧
      (cmdState 6 raster32).host = .txn (cmdWrite 6) :: [] := ⟨rfl, rfl, by decide, rfl, by decide, rfl⟩
theorem witness_ErrorRecordBlocksNoCommand : exec .rot270 raster32 = .next (runRot270 raster32) := rfl
/-- Both verdicts of LegalTransactionsExactly, at the last legal and the first illegal offset of each window of the
3x2 build. -/
theorem witness_LegalTransactionsExactly :
    (pushEvent (.txn ⟨.read, 0x14, 2, 0⟩) raster32).host = .txn ⟨.read, 0x14, 2, 0⟩ :: [] ∧
      (target g32 ⟨.read, 0x14, 2, 0⟩).isSome = true ∧ target g32 ⟨.read, 0x18, 2, 0⟩ = none ∧
      (target g32 ⟨.write, 0x20008, 2, 0⟩).isSome = true ∧ target g32 ⟨.write, 0x2000C, 2, 0⟩ = none ∧
      (target g32 ⟨.read, 0x40010, 1, 0⟩).isSome = true ∧ target g32 ⟨.read, 0x40010, 2, 0⟩ = none := by decide
theorem witness_BusErrorChangesNoState :
    (pushEvent (.txn ⟨.write, 0x40000, 0, 0⟩) raster32).host = .txn ⟨.write, 0x40000, 0, 0⟩ :: [] ∧
      ¬ Legal g32 ⟨.write, 0x40000, 0, 0⟩ := ⟨rfl, (Laws.target_eq_none_iff _ _).1 (by decide)⟩
theorem witness_FaultsAreNeverCleared : step raster32 = .next raster32 := rfl
theorem witness_RegisterReads :
    (pushEvent (.txn ⟨.read, 0x0C, 2, 0⟩) frame32).host = .txn ⟨.read, 0x0C, 2, 0⟩ :: [] ∧ frame32.len = 12 := by decide
theorem witness_RegisterWrites :
    (pushEvent (.txn ⟨.write, 0x08, 2, 2⟩) raster32).host = .txn ⟨.write, 0x08, 2, 2⟩ :: [] := rfl
/-- The write of the last IBUF word of the 3x2 build: InputWrite, and with `j = 2` WideInputWriteSetsTwoPixelWords. -/
theorem witness_InputWrite :
    (pushEvent (.txn ⟨.write, 0x20008, 2, 0⟩) frame32).host = .txn ⟨.write, 0x20008, 2, 0⟩ :: [] ∧
      sizeBytes 2 = some 4 ∧ 0x20000 ≤ (0x20008 : BitVec 19).toNat ∧ Legal frame32.geom ⟨.write, 0x20008, 2, 0⟩ ∧
      (0x20008 : BitVec 19).toNat = 0x20000 + 4 * 2 ∧ 4 * 2 + 4 ≤ ibytes frame32.geom :=
  ⟨rfl, by decide, by decide, legal_of_target (by decide), by decide, by decide⟩
/-- The read of the last IBUF byte of the 3x2 build. -/
theorem witness_InputRead :
    (pushEvent (.txn ⟨.read, 0x2000B, 0, 0⟩) frame32).host = .txn ⟨.read, 0x2000B, 0, 0⟩ :: [] ∧
      sizeBytes 0 = some 1 ∧ 0x20000 ≤ (0x2000B : BitVec 19).toNat ∧ (0x2000B : BitVec 19).toNat < 0x40000 ∧
      Legal frame32.geom ⟨.read, 0x2000B, 0, 0⟩ :=
  ⟨rfl, by decide, by decide, by decide, legal_of_target (by decide)⟩
/-- The read of the last RAST byte of the 3x2 build. -/
theorem witness_RasterRead :
    raster32.geom.WellFormed = true ∧
      (pushEvent (.txn ⟨.read, 0x40011, 0, 0⟩) raster32).host = .txn ⟨.read, 0x40011, 0, 0⟩ :: [] ∧
      sizeBytes 0 = some 1 ∧ 0x40000 ≤ (0x40011 : BitVec 19).toNat ∧ Legal raster32.geom ⟨.read, 0x40011, 0, 0⟩ :=
  ⟨by decide, rfl, by decide, by decide, legal_of_target (by decide)⟩
theorem witness_InputReadAfterWrite :
    ({ frame32 with host := [.txn ⟨.write, 0x20002, 1, 0xFFFF1234⟩, .txn ⟨.read, 0x20002, 1, 0⟩] } : State).host =
        .txn ⟨.write, 0x20002, 1, 0xFFFF1234⟩ :: .txn ⟨.read, 0x20002, 1, 0⟩ :: [] ∧
      sizeBytes 1 = some 2 ∧ 0x20000 ≤ (0x20002 : BitVec 19).toNat ∧
      Legal frame32.geom ⟨.write, 0x20002, 1, 0xFFFF1234⟩ := ⟨rfl, by decide, by decide, legal_of_target (by decide)⟩
theorem witness_ResetFromEveryState :
    (pushEvent .reset raster32).host = .reset :: [] ∧
      (pushEvent (.resetDuringCmd 5) raster32).host = .resetDuringCmd 5 :: [] := by decide
theorem witness_GeometryNeverChanges : step raster32 = .next raster32 := rfl
theorem witness_NoReadHasASideEffect :
    (pushEvent (.txn ⟨.read, 0x04, 2, 0⟩) raster32).host = .txn ⟨.read, 0x04, 2, 0⟩ :: [] := rfl
theorem witness_OnlyRasterCommandsChangeRast :
    after (step (cmdState 4 raster32)) (fun t => decide (t.rast ≠ raster32.rast)) = some true := by decide
theorem witness_OnlyPixelWritesPixout :
    after (step (cmdState 0xF8000001 raster32)) (fun t => decide (t.pixout ≠ raster32.pixout)) = some true := by decide
theorem witness_OnlyDecodeAndConvertChangeRv :
    after (step (cmdState 2 frame32)) (fun t => decide (t.rv ≠ frame32.rv)) = some true := by decide
theorem witness_OnlyStatusWriteClearsErr :
    after (step (pushEvent (.txn ⟨.write, 0x08, 2, 2⟩) { raster32 with err := true, ecode := 1 })) (·.err) =
      some false := by decide
theorem witness_OnlyTheHostWritesInput :
    after (step (pushEvent (.txn ⟨.write, 0x20000, 0, 1⟩) frame32)) (fun t => decide (t.ibuf ≠ frame32.ibuf)) =
        some true ∧
      after (step (pushEvent (.txn ⟨.write, 0x0C, 2, 1⟩) frame32)) (fun t => decide (t.len ≠ frame32.len)) =
        some true := by decide
theorem witness_CommandLines : 0xFFFF ≤ 0xFFFF ∧ 0xFFFF < 0x10000 ∧ ([] : List Nat).length ≠ 1 ∧
    ([1, 2] : List Nat).length ≠ 1 ∧ Mnemonic.NOP ≠ .PIXEL := by decide
/-- Every form of an address, the last offset of the window and the largest value. -/
theorem witness_PseudoInstructionExpansions :
    (∀ r, ∃ x, AddrMeans (.reg r) x ∧ x < 0x80000) ∧ AddrMeans (.buf .ibuf 0x5FFFF) 0x7FFFF ∧
      AddrMeans (.buf .rast 0x3FFFF) 0x7FFFF ∧ AddrMeans (.plain 0x7FFFF) 0x7FFFF ∧ WidthMeans .w8 0 ∧
      WidthMeans .w16 1 ∧ WidthMeans .w32 2 ∧ 0x7FFFF < 0x80000 ∧ 0xFFFFFFFF < 2 ^ 32 :=
  ⟨fun r => ⟨regOffset r, by cases r <;> simp [AddrMeans, regOffset], by cases r <;> decide⟩, by simp [AddrMeans],
    by simp [AddrMeans], by simp [AddrMeans], by simp [WidthMeans], by simp [WidthMeans], by simp [WidthMeans],
    by decide, by decide⟩
theorem witness_LinesOutsideTheBusIssueNothing :
    AddrMeans (.buf .rast 0x40000) 0x80000 ∧ AddrMeans (.plain 0x80000) 0x80000 ∧ 0x80000 ≤ 0x80000 ∧
      AddrMeans (.reg .len) 0x0C ∧ 2 ^ 32 ≤ 0x100000000 :=
  ⟨by simp [AddrMeans], by simp [AddrMeans], by decide, by simp [AddrMeans], by decide⟩
theorem witness_WindowOffsets : Config.base + 0x80000 ≤ Config.base + 0x80000 := Nat.le_refl _

end Sys2Proof.Tests.Slice0
end

section
/-! PROOFS of the state family (10_state.md), part 1: what a command and what one step can do to the state. -/

namespace Sys2Proof.Proofs

open Sys2Proof.Machine Sys2Proof.Laws

/-! ### The commands -/

/-- What a raster command may do outside the raster, the error code and the draw counter: keep every field, but for a
command error, which sets ERR and never clears it (R172). -/
structure KeepsBesidesRaster (s t : State) : Prop where
  geom : t.geom = s.geom
  len : t.len = s.len
  pixout : t.pixout = s.pixout
  ibuf : t.ibuf = s.ibuf
  host : t.host = s.host
  responses : t.responses = s.responses
  faults : t.faults = s.faults
  errStays : s.err = true → t.err = true

theorem KeepsBesidesRaster.refl (s : State) : KeepsBesidesRaster s s := ⟨rfl, rfl, rfl, rfl, rfl, rfl, rfl, id⟩

theorem KeepsBesidesRaster.trans {s t u : State} (h : KeepsBesidesRaster s t) (h' : KeepsBesidesRaster t u) :
    KeepsBesidesRaster s u :=
  ⟨h'.geom.trans h.geom, h'.len.trans h.len, h'.pixout.trans h.pixout, h'.ibuf.trans h.ibuf, h'.host.trans h.host,
    h'.responses.trans h.responses, h'.faults.trans h.faults, h'.errStays ∘ h.errStays⟩

theorem raiseCmdError_keeps (code : CmdErrorCode) (s : State) : KeepsBesidesRaster s (raiseCmdError code s) := by
  constructor <;> simp

theorem runDecode_keeps (s : State) : KeepsBesidesRaster s (runDecode s) := by
  by_cases h : s.len.toNat = 2 * s.geom.W.toNat * s.geom.H.toNat
  · rw [runDecode_ok h]
    constructor <;> simp
  · rw [runDecode_fail h]
    constructor <;> simp

theorem runRot270_keeps (s : State) : KeepsBesidesRaster s (runRot270 s) := by
  cases h : s.rv with
  | false => rw [runRot270_fail h]; exact raiseCmdError_keeps _ s
  | true => rw [runRot270_ok h]; constructor <;> simp

theorem runHflip_keeps (s : State) : KeepsBesidesRaster s (runHflip s) := by
  cases h : s.rv with
  | false => rw [runHflip_fail h]; exact raiseCmdError_keeps _ s
  | true => rw [runHflip_ok h]; constructor <;> simp

theorem runConvert_keeps (s : State) : KeepsBesidesRaster s (runConvert s) := by
  by_cases h : s.len.toNat = 2 * s.geom.W.toNat * s.geom.H.toNat
  · rw [runConvert_ok h]
    exact ((runDecode_keeps s).trans (runRot270_keeps _)).trans (runHflip_keeps _)
  · rw [runConvert_fail h]; exact runDecode_keeps s

/-- RV after DECODE says whether the size check passed (R106). -/
theorem runDecode_rv (s : State) : (runDecode s).rv = sizeOk s.geom s.len := by
  by_cases h : s.len.toNat = 2 * s.geom.W.toNat * s.geom.H.toNat
  · rw [runDecode_ok h, (sizeOk_iff _ _).2 h]; rfl
  · rw [runDecode_fail h, (sizeOk_false_iff _ _).2 h]; simp

theorem runRot270_rv (s : State) : (runRot270 s).rv = s.rv := by
  cases h : s.rv with
  | false => simp [runRot270_fail h, h]
  | true => simp [runRot270_ok h]

theorem runHflip_rv (s : State) : (runHflip s).rv = s.rv := by
  cases h : s.rv with
  | false => simp [runHflip_fail h, h]
  | true => simp [runHflip_ok h, h]

/-- RV after CONVERT is that of its DECODE (R145). -/
theorem runConvert_rv (s : State) : (runConvert s).rv = sizeOk s.geom s.len := by
  by_cases h : s.len.toNat = 2 * s.geom.W.toNat * s.geom.H.toNat
  · rw [runConvert_ok h, runHflip_rv, runRot270_rv, runDecode_rv]
  · rw [runConvert_fail h, runDecode_rv]

/-- The state a command leaves. -/
def commandEffect : Instr → State → State
  | .nop, s => s
  | .pixel imm16, s => { s with pixout := pixelBits (dec565 imm16) }
  | .decode, s => runDecode s
  | .rot270, s => runRot270 s
  | .hflip, s => runHflip s
  | .convert, s => runConvert s

/-- Every command answers a next state, the one `commandEffect` gives (R140). -/
theorem exec_eq (i : Instr) (s : State) : exec i s = .next (commandEffect i s) := by cases i <;> rfl

/-- Every command but PIXEL is a raster command or NOP, which changes nothing. -/
theorem commandEffect_keeps {i : Instr} (s : State) (h : ∀ w, i ≠ .pixel w) :
    KeepsBesidesRaster s (commandEffect i s) := by
  cases i with
  | nop => exact .refl s
  | pixel w => exact absurd rfl (h w)
  | decode => exact runDecode_keeps s
  | rot270 => exact runRot270_keeps s
  | hflip => exact runHflip_keeps s
  | convert => exact runConvert_keeps s

/-- No command writes GEOM, LEN or IBUF (R23, R27, R31). -/
theorem commandEffect_input (i : Instr) (s : State) :
    (commandEffect i s).geom = s.geom ∧ (commandEffect i s).len = s.len ∧ (commandEffect i s).ibuf = s.ibuf := by
  by_cases h : ∃ w, i = .pixel w
  · obtain ⟨w, rfl⟩ := h
    exact ⟨rfl, rfl, rfl⟩
  · have hk := commandEffect_keeps s (not_exists.1 h)
    exact ⟨hk.geom, hk.len, hk.ibuf⟩

/-- No command clears ERR (R143). -/
theorem commandEffect_errStays (i : Instr) {s : State} (herr : s.err = true) : (commandEffect i s).err = true := by
  by_cases h : ∃ w, i = .pixel w
  · obtain ⟨w, rfl⟩ := h
    exact herr
  · exact (commandEffect_keeps s (not_exists.1 h)).errStays herr

/-- RV after a command: DECODE and CONVERT set it to the outcome of the size check, the others keep it (R30). -/
theorem commandEffect_rv (i : Instr) (s : State) : (commandEffect i s).rv =
    if i = .decode ∨ i = .convert then sizeOk s.geom s.len else s.rv := by
  cases i with
  | nop | pixel => rfl
  | decode => exact runDecode_rv s
  | rot270 => exact runRot270_rv s
  | hflip => exact runHflip_rv s
  | convert => exact runConvert_rv s

/-! ### One step -/

/-- A target is that of the transaction's size in bytes (R151, R152). -/
theorem targetAt_of_target {g : Geometry} {x : Txn} {y : Target} (h : target g x = some y) :
    ∃ n, sizeBytes x.size = some n ∧ targetAt g x.kind x.addr.toNat n = some y := by
  unfold target at h
  cases hn : sizeBytes x.size with
  | none => rw [hn] at h; cases h
  | some n => rw [hn] at h; exact ⟨n, rfl, h⟩

/-- A write to a register is the aligned 32-bit write at its offset (R56, R152). -/
theorem eq_of_target_reg {g : Geometry} {x : Txn} {r : Reg} (h : target g x = some (.reg r)) (hk : x.kind = .write) :
    x = ⟨.write, BitVec.ofNat 19 (regOffset r), 2, x.wdata⟩ := by
  obtain ⟨n, hn, hat⟩ := targetAt_of_target h
  obtain ⟨-, ⟨r', hr, haddr, hn4⟩ | ⟨hr, -⟩ | ⟨hr, -⟩⟩ := targetAt_cases hat
  · cases hr
    have hsize : x.size = 2 := by
      rcases (sizeBytes_iff _ _).1 hn with ⟨-, h1⟩ | ⟨-, h2⟩ | ⟨h2, -⟩
      · omega
      · omega
      · exact h2
    have haddr19 : x.addr = BitVec.ofNat 19 (regOffset r) := by simp [← haddr]
    rw [← haddr19, ← hsize, ← hk]
  · cases hr
  · cases hr

/-- A transaction on IBUF lies in its window (R50) and inside the buffer (R31, R152). -/
theorem target_ibuf {g : Geometry} {x : Txn} {a n : Nat} (h : target g x = some (.ibuf a n)) :
    x.addr.toNat = ibufBase + a ∧ a + n ≤ ibytes g := by
  obtain ⟨n', -, hat⟩ := targetAt_of_target h
  obtain ⟨-, ⟨r, hr, -⟩ | ⟨hr, hbase, hsize⟩ | ⟨hr, -⟩⟩ := targetAt_cases hat
  · cases hr
  · simp only [Target.ibuf.injEq] at hr
    obtain ⟨ha, hn⟩ := hr
    rw [ha, hn]
    exact ⟨(Nat.add_sub_of_le hbase).symm, hsize⟩
  · cases hr

/-- What one step can do to the state `s`, by the event it takes: an inversion of `step` that every claim about a
single field splits on. -/
inductive StepChange (s : State) : State → Prop
  /-- No event is to come (R190). -/
  | idle (h : s.host = []) : StepChange s s
  /-- `rst` while no command runs (R190). -/
  | reset (rest : List Event) (h : s.host = .reset :: rest) : StepChange s (applyReset { s with host := rest })
  /-- `rst` during a command (R191). -/
  | resetDuringCmd (c : Word) (rest : List Event) (h : s.host = .resetDuringCmd c :: rest) :
      StepChange s (applyReset { s with host := rest })
  /-- An illegal transaction (R176). -/
  | busError (x : Txn) (rest : List Event) (h : s.host = .txn x :: rest) (hx : target s.geom x = none) :
      StepChange s (busError x { s with host := rest })
  /-- A legal read: only the numbering of draws may move (R61, log entry 4). -/
  | read (x : Txn) (rest : List Event) (h : s.host = .txn x :: rest) (hk : x.kind = .read) (v : Word) (d : Nat) :
      StepChange s (respond (.ok v) { s with host := rest, draws := d })
  /-- A write to GEOM, PIXOUT or RDIM (R154). -/
  | writeReadOnly (x : Txn) (rest : List Event) (h : s.host = .txn x :: rest) (hk : x.kind = .write) :
      StepChange s (respond (.ok 0) { s with host := rest })
  /-- A write of an ILLEGAL word to CMD (R140). -/
  | illegal (c : Word) (rest : List Event) (h : s.host = .txn (cmdWrite c) :: rest) (why : Illegal)
      (hd : decode c = .illegal why) :
      StepChange s (respond (.ok 0) (raiseCmdError .illegalCmd { s with host := rest }))
  /-- A write of a command's word to CMD (R140). -/
  | command (c : Word) (rest : List Event) (h : s.host = .txn (cmdWrite c) :: rest) (i : Instr)
      (hd : decode c = .ok i) : StepChange s (respond (.ok 0) (commandEffect i { s with host := rest }))
  /-- A write to STATUS (R26). -/
  | writeStatus (v : Word) (rest : List Event) (h : s.host = .txn ⟨.write, 0x08, 2, v⟩ :: rest) :
      StepChange s (respond (.ok 0) (writeStatus v { s with host := rest }))
  /-- A write to LEN (R27). -/
  | writeLen (v : Word) (rest : List Event) (h : s.host = .txn ⟨.write, 0x0C, 2, v⟩ :: rest) :
      StepChange s (respond (.ok 0) { s with host := rest, len := v })
  /-- A write to IBUF (R155). -/
  | writeInput (x : Txn) (rest : List Event) (h : s.host = .txn x :: rest) (hk : x.kind = .write) (a n : Nat)
      (haddr : x.addr.toNat = ibufBase + a) (hsize : a + n ≤ ibytes s.geom) :
      StepChange s (hostWriteIbuf a n x.wdata { s with host := rest })

/-- The register writes among the steps (R154). -/
theorem stepChange_of_writeReg {s u : State} {x : Txn} {rest : List Event} {r : Reg} (h : s.host = .txn x :: rest)
    (ht : target s.geom x = some (.reg r)) (hk : x.kind = .write)
    (hu : writeRegEffect r x.wdata { s with host := rest } = .next u) : StepChange s (respond (.ok 0) u) := by
  have hx := eq_of_target_reg ht hk
  obtain ⟨-, rfl⟩ | ⟨rfl, why, hd, rfl⟩ | ⟨rfl, i, hd, hi⟩ | ⟨rfl, rfl⟩ | ⟨rfl, rfl⟩ := writeRegEffect_cases hu
  · exact .writeReadOnly x rest h hk
  · exact .illegal x.wdata rest (h.trans (by rw [hx]; rfl)) why hd
  · rw [exec_eq] at hi
    cases hi
    exact .command x.wdata rest (h.trans (by rw [hx]; rfl)) i hd
  · exact .writeStatus x.wdata rest (h.trans (by rw [hx]; rfl))
  · exact .writeLen x.wdata rest (h.trans (by rw [hx]; rfl))

/-- The transactions among the steps (R151). -/
theorem stepChange_of_transact {s t : State} {x : Txn} {rest : List Event} (h : s.host = .txn x :: rest)
    (hstep : transact x { s with host := rest } = .next t) : StepChange s t := by
  obtain ⟨ht, rfl⟩ | ⟨r, -, hk, rfl⟩ | ⟨r, u, ht, hk, hu, rfl⟩ | ⟨a, n, -, hk, rfl⟩ | ⟨a, n, ht, hk, rfl⟩ |
    ⟨a, n, -, hk, rfl⟩ := transact_cases hstep
  · exact .busError x rest h ht
  · exact .read x rest h hk _ s.draws
  · exact stepChange_of_writeReg h ht hk hu
  · exact .read x rest h hk _ _
  · obtain ⟨haddr, hsize⟩ := target_ibuf ht
    exact .writeInput x rest h hk a n haddr hsize
  · exact .read x rest h hk _ _

/-- Every step is one of the changes of `StepChange`. -/
theorem stepChange_of_step {s t : State} (hstep : step s = .next t) : StepChange s t := by
  rcases h : s.host with _ | ⟨e, rest⟩
  · rw [step_idle h] at hstep
    cases hstep
    exact .idle h
  · rw [step_event h] at hstep
    cases e with
    | txn x => exact stepChange_of_transact h hstep
    | reset =>
      cases hstep
      exact .reset rest h
    | resetDuringCmd c =>
      cases hstep
      exact .resetDuringCmd c rest h

end Sys2Proof.Proofs
end

section
/-! PROOFS of the state family, part 2: the reset state and the invariant `State.Inv`. Each shared operation keeps the
invariant, hence each command, hence each step, hence each run. -/

namespace Sys2Proof.Proofs

open Sys2Proof.Machine Sys2Proof.Laws

/-! ### The invariant after reset -/

/-- The registers and buffers of R37 meet the invariant, beside any record of a run that counts its faults. -/
theorem inv_resetOf {g : Geometry} (hg : g.WellFormed = true) (host : List Event) {responses : List Response}
    {faults : List Fault} (draws : Nat)
    (hcount : faults.length = responses.countP (fun r => decide (r = .buserr))) :
    ({ State.resetOf g with host := host, responses := responses, faults := faults, draws := draws } : State).Inv where
  geom := hg
  ibufForm := .nil
  ibufWithin := fun _ hc => nomatch hc
  rastForm := .nil
  rastWithin := fun _ hc => nomatch hc
  errCode := iff_of_true rfl rfl
  codeKnown := Nat.zero_le 3
  noRaster := fun _ => ⟨rfl, rfl⟩
  dims := fun hrv => nomatch hrv
  written := fun hrv => nomatch hrv
  faultsCounted := hcount

theorem inv_ready {g : Geometry} (hg : g.WellFormed = true) (host : List Event) :
    ({ State.resetOf g with host := host } : State).Inv := inv_resetOf hg host 0 rfl

theorem inv_applyReset {s : State} (h : s.Inv) : (applyReset s).Inv :=
  inv_resetOf h.geom s.host s.draws h.faultsCounted

/-! ### The shared operations keep the invariant -/

/-- The invariant says nothing of LEN, PIXOUT, the queue and the draw counter. -/
theorem inv_unconstrained {s : State} (h : s.Inv) (len : Word) (pixout : BitVec 24) (host : List Event)
    (draws : Nat) : ({ s with len := len, pixout := pixout, host := host, draws := draws } : State).Inv :=
  { h with }

theorem inv_respond_ok {s : State} (h : s.Inv) (v : Word) : (respond (.ok v) s).Inv :=
  { h with faultsCounted := by simpa using h.faultsCounted }

/-- A bus error is answered and recorded together (R177). -/
theorem inv_busError {s : State} (h : s.Inv) (x : Txn) : (busError x s).Inv :=
  { h with faultsCounted := by simpa using h.faultsCounted }

/-- The error record may become any that meets R25 and R170. -/
theorem inv_errorRecord {s : State} (h : s.Inv) {err : Bool} {ecode : BitVec 4} (hcode : err = false ↔ ecode = 0)
    (hknown : ecode.toNat ≤ 3) : ({ s with err := err, ecode := ecode } : State).Inv :=
  { h with errCode := hcode, codeKnown := hknown }

theorem ecodeOf_ne_zero (code : CmdErrorCode) : ecodeOf code ≠ 0 := by cases code <;> decide

theorem ecodeOf_le (code : CmdErrorCode) : (ecodeOf code).toNat ≤ 3 := by cases code <;> decide

theorem inv_raiseCmdError {s : State} (h : s.Inv) (code : CmdErrorCode) : (raiseCmdError code s).Inv := by
  unfold raiseCmdError
  split
  · exact inv_errorRecord h (iff_of_false (by decide) (ecodeOf_ne_zero code)) (ecodeOf_le code)
  · exact h

theorem inv_writeStatus {s : State} (h : s.Inv) (v : Word) : (writeStatus v s).Inv := by
  unfold writeStatus
  split
  · exact inv_errorRecord h (iff_of_true rfl rfl) (Nat.zero_le 3)
  · exact h

theorem inv_hostWriteIbuf {s : State} (h : s.Inv) {a n : Nat} (v : Word) (hsize : a + n ≤ ibytes s.geom) :
    (hostWriteIbuf a n v s).Inv :=
  inv_respond_ok (s := { s with ibuf := memWrite s.ibuf a n v })
    { h with
      ibufForm := memWrite_wf a n v h.ibufForm
      ibufWithin := memWrite_within v hsize h.ibufWithin } 0

theorem inv_clearRaster {s : State} (h : s.Inv) : (clearRaster s).Inv :=
  { h with
    noRaster := fun _ => ⟨rfl, rfl⟩
    dims := fun hrv => nomatch hrv
    written := fun hrv => nomatch hrv }

theorem inv_setRaster {s : State} (h : s.Inv) {cw ch : Half} (hdims : DimsFit { s with cw := cw, ch := ch })
    (hwritten : RasterWritten s) : (setRaster cw ch s).Inv :=
  { h with
    noRaster := fun hrv => nomatch hrv
    dims := fun _ => hdims
    written := fun _ => hwritten }

/-! ### The commands keep the invariant -/

/-- Writing `NPIX` pixels writes every byte of RAST (R32). -/
theorem rasterWritten_putPixels (s : State) {ps : List Pixel} (hlen : ps.length = npix s.geom) (draws : Nat) :
    RasterWritten { s with rast := putPixels s.rast ps, draws := draws } :=
  fun _ ha => putPixels_written s.rast ps (hlen ▸ ha)

theorem inv_putPixels {s : State} (h : s.Inv) {ps : List Pixel} (hlen : ps.length = npix s.geom) (draws : Nat) :
    ({ s with rast := putPixels s.rast ps, draws := draws } : State).Inv :=
  { h with
    rastForm := putPixels_wf ps h.rastForm
    rastWithin := putPixels_within (hlen ▸ Nat.le_refl _) h.rastWithin
    written := fun _ => rasterWritten_putPixels s hlen draws }

/-- The pixel loop of a transform writes `NPIX` pixels, for a valid raster has the build's dimensions or these
swapped (R29). -/
theorem movedPixels_length_of_inv {s : State} (h : s.Inv) (hrv : s.rv = true) (source : Nat → Nat) (T : Array Pixel) :
    (movedPixels source (s.cw.toNat * s.ch.toNat) T).length = npix s.geom :=
  (movedPixels_length ..).trans (dimsFit_area (h.dims hrv))

theorem inv_moveRaster {s : State} (h : s.Inv) (hrv : s.rv = true) (source : Nat → Nat) : (moveRaster source s).Inv :=
  inv_putPixels h (movedPixels_length_of_inv h hrv source _) _

theorem inv_runDecode {s : State} (h : s.Inv) : (runDecode s).Inv := by
  by_cases hlen : s.len.toNat = 2 * s.geom.W.toNat * s.geom.H.toNat
  · rw [runDecode_ok hlen]
    exact inv_setRaster (inv_putPixels h (decodedPixels_length ..) _) (.inl ⟨rfl, rfl⟩)
      (rasterWritten_putPixels s (decodedPixels_length ..) _)
  · rw [runDecode_fail hlen]
    exact inv_raiseCmdError (inv_clearRaster h) _

/-- ROT270 swaps the dimensions, so they are still the build's or these swapped (R29). -/
theorem inv_runRot270 {s : State} (h : s.Inv) : (runRot270 s).Inv := by
  cases hrv : s.rv with
  | false => rw [runRot270_fail hrv]; exact inv_raiseCmdError h _
  | true =>
    rw [runRot270_ok hrv]
    have hmoved := inv_moveRaster h hrv (rotSource s.cw.toNat s.ch.toNat)
    have hdims : DimsFit { s with cw := s.ch, ch := s.cw } := (h.dims hrv).symm.imp And.symm And.symm
    exact inv_setRaster hmoved hdims (hmoved.written hrv)

theorem inv_runHflip {s : State} (h : s.Inv) : (runHflip s).Inv := by
  cases hrv : s.rv with
  | false => rw [runHflip_fail hrv]; exact inv_raiseCmdError h _
  | true => rw [runHflip_ok hrv]; exact inv_moveRaster h hrv _

theorem inv_runConvert {s : State} (h : s.Inv) : (runConvert s).Inv := by
  by_cases hlen : s.len.toNat = 2 * s.geom.W.toNat * s.geom.H.toNat
  · rw [runConvert_ok hlen]
    exact inv_runHflip (inv_runRot270 (inv_runDecode h))
  · rw [runConvert_fail hlen]
    exact inv_runDecode h

theorem inv_commandEffect {s : State} (h : s.Inv) (i : Instr) : (commandEffect i s).Inv := by
  cases i with
  | nop => exact h
  | pixel w => exact inv_unconstrained h s.len _ s.host s.draws
  | decode => exact inv_runDecode h
  | rot270 => exact inv_runRot270 h
  | hflip => exact inv_runHflip h
  | convert => exact inv_runConvert h

/-! ### Steps and runs keep the invariant -/

theorem inv_of_stepChange {s t : State} (h : s.Inv) (hst : StepChange s t) : t.Inv := by
  have hs : ∀ rest, ({ s with host := rest } : State).Inv := fun rest =>
    inv_unconstrained h s.len s.pixout rest s.draws
  cases hst with
  | idle => exact h
  | reset rest => exact inv_applyReset (hs rest)
  | resetDuringCmd c rest => exact inv_applyReset (hs rest)
  | busError x rest => exact inv_busError (hs rest) x
  | read x rest _ _ v d => exact inv_respond_ok (inv_unconstrained h s.len s.pixout rest d) v
  | writeReadOnly x rest => exact inv_respond_ok (hs rest) 0
  | illegal c rest => exact inv_respond_ok (inv_raiseCmdError (hs rest) _) 0
  | command c rest _ i => exact inv_respond_ok (inv_commandEffect (hs rest) i) 0
  | writeStatus v rest => exact inv_respond_ok (inv_writeStatus (hs rest) v) 0
  | writeLen v rest => exact inv_respond_ok (inv_unconstrained h v s.pixout rest s.draws) 0
  | writeInput x rest _ _ a n _ hsize => exact inv_hostWriteIbuf (hs rest) x.wdata hsize

/-- Settles O3: each change a step can make keeps the invariant. -/
theorem stepKeepsInv : Obligations.StepKeepsInv :=
  fun _ _ h hstep => inv_of_stepChange h (stepChange_of_step hstep)

/-- Settles O2: the reset state has empty buffers, no raster, no error and no record of a run. -/
theorem resetMeetsInv : Obligations.ResetMeetsInv :=
  ⟨inv_ready (g := Config.geometry) (by decide) [], fun _ hg es => inv_ready hg es⟩

/-- Settles O4, by induction on the run: O2 at its start, O3 at each step. -/
theorem reachableStatesMeetInv : Obligations.ReachableStatesMeetInv := by
  intro s hs
  induction hs with
  | start g hg es => exact inv_ready hg es
  | step _ hstep ih => exact stepKeepsInv _ _ ih hstep

end Sys2Proof.Proofs
end

section
/-! PROOFS of the state family, part 3: which steps change which field, and the fields of the reset state and of the
register words. -/

namespace Sys2Proof.Proofs

open Sys2Proof.Machine Sys2Proof.Laws

/-! ### Which steps change a field -/

/-- Settles O50: a reset keeps GEOM, and no command and no register write has it in its effect. -/
theorem geometryNeverChanges : Obligations.GeometryNeverChanges := by
  intro s t hstep
  cases stepChange_of_step hstep with
  | idle | reset | resetDuringCmd | busError | read | writeReadOnly | writeLen | writeInput => rfl
  | illegal | writeStatus => simp
  | command c rest _ i => exact (commandEffect_input i _).1

/-- Settles O53: of the commands, only PIXEL is outside `commandEffect_keeps`. -/
theorem onlyPixelWritesPixout : Obligations.OnlyPixelWritesPixout := by
  intro s t hstep hne
  cases stepChange_of_step hstep with
  | idle | busError | read | writeReadOnly | writeLen | writeInput => exact absurd rfl hne
  | illegal | writeStatus => exact absurd (by simp) hne
  | reset rest h => exact .inr (.inl ⟨rest, h⟩)
  | resetDuringCmd c rest h => exact .inr (.inr ⟨c, rest, h⟩)
  | command c rest h i hd =>
    by_cases hi : ∃ w, i = .pixel w
    · obtain ⟨w, rfl⟩ := hi
      exact .inl ⟨c, w, rest, h, hd⟩
    · exact absurd (commandEffect_keeps _ (not_exists.1 hi)).pixout hne

/-- Settles O54: a command other than DECODE and CONVERT keeps RV, and these set it to the size check's outcome. -/
theorem onlyDecodeAndConvertChangeRv : Obligations.OnlyDecodeAndConvertChangeRv := by
  intro s t hstep hne
  cases stepChange_of_step hstep with
  | idle | busError | read | writeReadOnly | writeLen | writeInput => exact absurd rfl hne
  | illegal | writeStatus => exact absurd (by simp) hne
  | reset rest h => exact .inr ⟨rfl, .inl ⟨rest, h⟩⟩
  | resetDuringCmd c rest h => exact .inr ⟨rfl, .inr ⟨c, rest, h⟩⟩
  | command c rest h i hd =>
    rw [respond_rv, commandEffect_rv] at hne ⊢
    by_cases hi : i = .decode ∨ i = .convert
    · rw [if_pos hi]
      exact .inl ⟨c, rest, h, by rwa [hd, Decoded.ok.injEq, Decoded.ok.injEq], sizeOk_iff _ _⟩
    · exact absurd (if_neg hi) hne

/-- Settles O55: commands and illegal words only set ERR, and a STATUS write clears it by its bit 1 alone. -/
theorem onlyStatusWriteClearsErr : Obligations.OnlyStatusWriteClearsErr := by
  intro s t hstep herr hclear
  have hset : t.err ≠ true := by simp [hclear]
  cases stepChange_of_step hstep with
  | idle | busError | read | writeReadOnly | writeLen | writeInput => exact absurd herr hset
  | illegal => exact absurd (raiseCmdError_err ..) hset
  | command c rest _ i => exact absurd (commandEffect_errStays i (s := { s with host := rest }) herr) hset
  | reset rest h => exact .inr (.inl ⟨rest, h⟩)
  | resetDuringCmd c rest h => exact .inr (.inr ⟨c, rest, h⟩)
  | writeStatus v rest h => exact .inl ⟨v, rest, h, by simpa [herr] using hclear⟩

/-- IBUF changes only by a host write to its window, resets apart (R31). -/
theorem ibuf_of_stepChange {s t : State} (hst : StepChange s t) (hreset : ∀ rest, s.host ≠ .reset :: rest)
    (hresetCmd : ∀ c rest, s.host ≠ .resetDuringCmd c :: rest) (hne : t.ibuf ≠ s.ibuf) :
    ∃ x rest, s.host = .txn x :: rest ∧ x.kind = .write ∧ 0x20000 ≤ x.addr.toNat := by
  cases hst with
  | idle | busError | read | writeReadOnly | writeLen => exact absurd rfl hne
  | illegal | writeStatus => exact absurd (by simp) hne
  | command c rest _ i => exact absurd (commandEffect_input i _).2.2 hne
  | reset rest h => exact absurd h (hreset rest)
  | resetDuringCmd c rest h => exact absurd h (hresetCmd c rest)
  | writeInput x rest h hk a n haddr => exact ⟨x, rest, h, hk, haddr ▸ Nat.le_add_right ..⟩

/-- LEN changes only by a host write to LEN, resets apart (R27). -/
theorem len_of_stepChange {s t : State} (hst : StepChange s t) (hreset : ∀ rest, s.host ≠ .reset :: rest)
    (hresetCmd : ∀ c rest, s.host ≠ .resetDuringCmd c :: rest) (hne : t.len ≠ s.len) :
    ∃ v rest, s.host = .txn ⟨.write, 0x0C, 2, v⟩ :: rest := by
  cases hst with
  | idle | busError | read | writeReadOnly | writeInput => exact absurd rfl hne
  | illegal | writeStatus => exact absurd (by simp) hne
  | command c rest _ i => exact absurd (commandEffect_input i _).2.1 hne
  | reset rest h => exact absurd h (hreset rest)
  | resetDuringCmd c rest h => exact absurd h (hresetCmd c rest)
  | writeLen v rest h => exact ⟨v, rest, h⟩

/-- Settles O56, from the frame of the commands and the two inversions above. -/
theorem onlyTheHostWritesInput : Obligations.OnlyTheHostWritesInput := by
  refine ⟨fun s t i hexec => ?_, fun s t hstep hreset hresetCmd => ?_⟩
  · rw [exec_eq] at hexec
    cases hexec
    obtain ⟨hgeom, hlen, hibuf⟩ := commandEffect_input i s
    exact ⟨hibuf, hlen, hgeom⟩
  · have hst := stepChange_of_step hstep
    exact ⟨ibuf_of_stepChange hst hreset hresetCmd, len_of_stepChange hst hreset hresetCmd⟩

/-! ### The reset state and the register words -/

/-- Settles O1: R37's table, field by field. -/
theorem resetStateValues : Obligations.ResetStateValues := by
  have hgeom : geomVal State.reset.geom = 0x014000AA := by decide
  have hstatus : statusWord State.reset = 0 := by decide
  have hrdim : rdimWord State.reset = 0 := by decide
  exact ⟨hgeom, rfl, rfl, rfl, hstatus, rfl, rfl, hrdim, fun a => ⟨memGet_nil a, memGet_nil a⟩⟩

/-- STATUS bit by bit: RV, ERR, ECODE from bit 4 on, and 0 elsewhere (R25). -/
theorem statusWord_getLsbD (s : State) (i : Nat) : (statusWord s).getLsbD i =
    if i = 0 then s.rv else if i = 1 then s.err else decide (4 ≤ i) && s.ecode.getLsbD (i - 4) := by
  rcases i with _ | _ | i
  · simp [statusWord]
  · simp [statusWord]
  · cases hbit : s.ecode.getLsbD (i - 2) with
    | false => simp [statusWord, hbit]
    | true =>
      have hlt : i - 2 < 4 := BitVec.lt_of_getLsbD hbit
      have hshift : decide (i + 1 + 1 < 4) = !decide (2 ≤ i) := by rw [← decide_not, decide_eq_decide]; omega
      simp [statusWord, hbit, hshift, show i + 1 + 1 < 32 by omega]

/-- Settles O43: STATUS by its bits, and PIXOUT as a zero-extended word (R28). -/
theorem statusAndPixoutFields : Obligations.StatusAndPixoutFields := by
  intro s
  refine ⟨?_, ?_, ?_, ?_, ?_, ?_, ?_⟩ <;> apply BitVec.eq_of_getLsbD_eq <;> intro i hi <;>
    rw [BitVec.getLsbD_extractLsb']
  · obtain rfl : i = 0 := by omega
    rw [statusWord_getLsbD]; simp
  · obtain rfl : i = 0 := by omega
    rw [statusWord_getLsbD]; simp
  · have hlow : ¬ 4 ≤ 2 + i := by omega
    simp [statusWord_getLsbD, hlow, show 2 + i ≠ 1 by omega]
  · simp [statusWord_getLsbD, hi, show 4 + i ≠ 1 by omega]
  · simp [statusWord_getLsbD, show 8 + i ≠ 1 by omega, show 4 ≤ 8 + i - 4 by omega]
  · simp [readReg]
  · simp [readReg, hi, show i < 32 by omega]

end Sys2Proof.Proofs
end

section
/-! PROOFS of the memory family (20_memory.md), part 1: the bytes of a word that is read from a buffer, and what a
read finds after a write. -/

namespace Sys2Proof.Proofs

open Sys2Proof.Machine Sys2Proof.Laws

/-! ### Little-endian words (R53) -/

/-- Bit `i` of a little-endian word is bit `i mod 8` of its byte `i div 8`, and 0 past its bytes (R53). -/
theorem leWord_getLsbD (bs : List Byte) {i : Nat} (hi : i < 32) :
    (leWord bs).getLsbD i = (bs[i / 8]?.getD 0).getLsbD (i % 8) := by
  induction bs generalizing i with
  | nil => simp [leWord]
  | cons b bs ih =>
    rw [leWord, BitVec.getLsbD_or, BitVec.getLsbD_shiftLeft, BitVec.getLsbD_setWidth]
    by_cases h8 : i < 8
    · simp [h8, hi, Nat.div_eq_of_lt h8, Nat.mod_eq_of_lt h8]
    · have hb : b.getLsbD i = false := BitVec.getLsbD_of_ge b i (by omega)
      rw [ih (by omega), show i / 8 = (i - 8) / 8 + 1 by omega, show i % 8 = (i - 8) % 8 by omega,
        List.getElem?_cons_succ]
      simp [h8, hi, hb]

/-- Bit `i` of what `MemRead` gives (R13). -/
theorem memRead_getLsbD (m : Memory) (a n d : Nat) {i : Nat} (hi : i < 32) : (memRead m a n d).getLsbD i =
    (decide (i / 8 < n) && (readByte m (a + i / 8) (d + i / 8)).getLsbD (i % 8)) := by
  rw [memRead, leWord_getLsbD _ hi]
  by_cases hn : i / 8 < n
  · simp [hn]
  · simp [hn]

/-- Pixel word `i` is the byte at `2i + 1` above the byte at `2i` (R52, R105). -/
theorem ibufWord_eq (m : Memory) (i d : Nat) :
    ibufWord m i d = readByte m (2 * i + 1) (d + 2 * i + 1) ++ readByte m (2 * i) (d + 2 * i) := by
  apply BitVec.eq_of_getLsbD_eq
  intro k hk
  rw [ibufWord, BitVec.getLsbD_setWidth, memRead_getLsbD _ _ _ _ (by omega), BitVec.getLsbD_append]
  by_cases h8 : k < 8
  · simp [h8, hk, Nat.div_eq_of_lt h8, Nat.mod_eq_of_lt h8]
  · simp [h8, hk, show k / 8 = 1 by omega, show k % 8 = k - 8 by omega]

/-- `readByte` gives the byte a read finds (R34). -/
theorem readByte_of_readsAs {m : Memory} {a d : Nat} {b : Byte} (h : ReadsAs m a d b) : readByte m a d = b := by
  obtain ⟨hwritten, hunwritten⟩ := h
  cases hm : memGet m a with
  | none => rw [readByte_of_unwritten hm, hunwritten hm]
  | some w => rw [readByte_of_written hm, hwritten w hm]

/-! ### Reading what was written -/

/-- Byte `k` of a write is byte `k` of its value, whichever draw stands by (R53). -/
theorem readByte_memWrite (m : Memory) {a n k : Nat} (v : Word) (d : Nat) (hk : k < n) :
    readByte (memWrite m a n v) (a + k) d = v.extractLsb' (8 * k) 8 :=
  readByte_of_written (memGet_memWrite_inside m v hk) d

/-- `MemRead` after `MemWrite` at the same offset and size gives the low `8n` bits of the value (R53). -/
theorem memRead_memWrite (m : Memory) (a n d : Nat) (v : Word) :
    memRead (memWrite m a n v) a n d = BitVec.ofNat 32 (v.toNat % 2 ^ (8 * n)) := by
  apply BitVec.eq_of_getLsbD_eq
  intro i hi
  rw [memRead_getLsbD _ _ _ _ hi, BitVec.getLsbD_ofNat, Nat.testBit_mod_two_pow, BitVec.testBit_toNat]
  by_cases hn : i / 8 < n
  · rw [readByte_memWrite _ _ _ hn, BitVec.getLsbD_extractLsb', Nat.div_add_mod]
    simp [hn, hi, show i < 8 * n by omega, Nat.mod_lt]
  · simp [hn, show ¬ i < 8 * n by omega]

/-- A write from pixel word `i` on sets pixel word `i + k` to bits `16k` to `16k + 15` of its value (R55). -/
theorem ibufWord_memWrite (m : Memory) {i n k : Nat} (v : Word) (d : Nat) (hk : 2 * k + 1 < n) :
    ibufWord (memWrite m (2 * i) n v) (i + k) d = v.extractLsb' (16 * k) 16 := by
  rw [ibufWord_eq, Nat.mul_add, Nat.add_assoc (2 * i), readByte_memWrite _ _ _ hk,
    readByte_memWrite _ _ _ (by omega), BitVec.extractLsb'_append_extractLsb'_eq_extractLsb' (by omega),
    ← Nat.mul_assoc]

/-- Settles O19: each byte is the one `readByte` finds. -/
theorem pixelWordIsLittleEndian : Obligations.PixelWordIsLittleEndian := by
  intro m i d lo hi hlo hhi
  rw [ibufWord_eq, readByte_of_readsAs hlo, readByte_of_readsAs hhi]

/-- Settles O59: `BASE` is a count of windows, and a window has as many offsets as 19 bits name. -/
theorem windowOffsets : Obligations.WindowOffsets := by
  refine ⟨fun a => ?_, fun x hx => ?_, Nat.dvd_mul_left _ _⟩
  · have ha := a.isLt
    rw [windowOffset, if_pos (by omega), Nat.add_sub_cancel_left, BitVec.ofNat_toNat, BitVec.setWidth_eq]
  · rw [windowOffset, if_neg (by omega)]

end Sys2Proof.Proofs
end

section
/-! PROOFS of the memory family, part 2: the transactions on IBUF as steps, and that no read has a side effect. -/

namespace Sys2Proof.Proofs

open Sys2Proof.Machine Sys2Proof.Laws

/-! ### The transactions on IBUF -/

theorem regAt_ibuf (a : Nat) : regAt (ibufBase + a) = none := by
  cases hr : regAt (ibufBase + a) with
  | none => rfl
  | some r =>
    have hoff := regAt_some hr
    cases r <;> simp only [ibufBase, regOffset] at hoff <;> omega

/-- An aligned transaction inside IBUF, read or write, acts on IBUF (R152). -/
theorem target_of_inside_ibuf {g : Geometry} {x : Txn} {a n : Nat} (hn : sizeBytes x.size = some n)
    (haddr : x.addr.toNat = ibufBase + a) (halign : x.addr.toNat % n = 0) (hsize : a + n ≤ ibytes g) :
    target g x = some (.ibuf a n) := by
  have hbuf : ibufBase ≤ ibufBase + a ∧ ibufBase + a - ibufBase + n ≤ ibytes g := by omega
  rw [haddr] at halign
  simp only [target, hn, haddr, targetAt]
  rw [if_neg (by omega), regAt_ibuf, if_neg (by simp), if_pos hbuf, Nat.add_sub_cancel_left]

/-- A legal write above the registers is aligned and inside IBUF (R152). -/
theorem inside_ibuf_of_legal_write {g : Geometry} {x : Txn} {n : Nat} (hlegal : Legal g x) (hk : x.kind = .write)
    (hn : sizeBytes x.size = some n) (hlow : ibufBase ≤ x.addr.toNat) :
    x.addr.toNat % n = 0 ∧ x.addr.toNat - ibufBase + n ≤ ibytes g := by
  obtain ⟨y, hy⟩ := Option.isSome_iff_exists.1 ((target_isSome_iff g x).2 hlegal)
  obtain ⟨n', hn', hat⟩ := targetAt_of_target hy
  obtain rfl : n = n' := Option.some.inj (hn.symm.trans hn')
  obtain ⟨halign, ⟨r, -, haddr, -⟩ | ⟨-, -, hsize⟩ | ⟨-, hread, -⟩⟩ := targetAt_cases hat
  · obtain ⟨a, ha⟩ := Nat.exists_eq_add_of_le hlow
    have hreg := regAt_offset r
    rw [← haddr, ha, regAt_ibuf] at hreg
    cases hreg
  · exact ⟨halign, hsize⟩
  · rw [hk] at hread; cases hread

/-- The step that writes IBUF (R155). -/
theorem step_writeIbuf {s : State} {x : Txn} {rest : List Event} {a n : Nat} (h : s.host = .txn x :: rest)
    (hk : x.kind = .write) (ht : target s.geom x = some (.ibuf a n)) :
    step s = .next (hostWriteIbuf a n x.wdata { s with host := rest }) := by
  rw [step_event h]
  simp only [runEvent, transact, ht, hk]

/-- The step that reads IBUF (R156). -/
theorem step_readIbuf {s : State} {x : Txn} {rest : List Event} {a n : Nat} (h : s.host = .txn x :: rest)
    (hk : x.kind = .read) (ht : target s.geom x = some (.ibuf a n)) :
    step s = .next (hostRead s.ibuf a n { s with host := rest }) := by
  rw [step_event h]
  simp only [runEvent, transact, ht, hk]

@[simp] theorem hostWriteIbuf_ibuf (a n : Nat) (v : Word) (s : State) :
    (hostWriteIbuf a n v s).ibuf = memWrite s.ibuf a n v := rfl

@[simp] theorem hostWriteIbuf_responses (a n : Nat) (v : Word) (s : State) :
    (hostWriteIbuf a n v s).responses = s.responses ++ [.ok 0] := rfl

@[simp] theorem hostRead_responses (m : Memory) (a n : Nat) (s : State) :
    (hostRead m a n s).responses = s.responses ++ [.ok (memRead m a n s.draws)] := rfl

/-- Settles O47: both transactions act on the same bytes of IBUF, and the read finds what the write put there. -/
theorem inputReadAfterWrite : Obligations.InputReadAfterWrite := by
  intro s a size v w n rest h hn hlow hlegal
  obtain ⟨halign, hsize⟩ := inside_ibuf_of_legal_write hlegal rfl hn hlow
  have haddr : a.toNat = ibufBase + (a.toNat - ibufBase) := (Nat.add_sub_of_le hlow).symm
  have hwrite := step_writeIbuf h rfl (target_of_inside_ibuf hn haddr halign hsize)
  have hread := step_readIbuf (rest := rest)
    (s := hostWriteIbuf (a.toNat - ibufBase) n v { s with host := .txn ⟨.read, a, size, w⟩ :: rest })
    rfl rfl (target_of_inside_ibuf hn haddr halign hsize)
  refine ⟨_, _, hwrite, hread, ?_⟩
  simp [memRead_memWrite]

/-- Settles O48: the four bytes written are those of pixel words `2j` and `2j + 1`. -/
theorem wideInputWriteSetsTwoPixelWords : Obligations.WideInputWriteSetsTwoPixelWords := by
  intro s a v j d rest h haddr hsize
  have halign : a.toNat % 4 = 0 := by omega
  have hwrite := step_writeIbuf h rfl (target_of_inside_ibuf (n := 4) rfl haddr halign hsize)
  have hoff : 4 * j = 2 * (2 * j) := by omega
  refine ⟨_, hwrite, ?_, ?_⟩ <;> rw [hostWriteIbuf_ibuf, hoff]
  · exact ibufWord_memWrite s.ibuf (k := 0) v d (by omega)
  · exact ibufWord_memWrite s.ibuf (k := 1) v d (by omega)

/-! ### Every transaction completes (R159) -/

theorem runCommand_completes (c : Word) (s : State) : ∃ t, runCommand c s = .next t := by
  unfold runCommand
  cases decode c with
  | illegal why => exact ⟨_, rfl⟩
  | ok i => exact ⟨_, exec_eq i s⟩

theorem writeReg_completes (r : Reg) (v : Word) (s : State) : ∃ t, writeReg r v s = .next t := by
  cases r with
  | geom | status | len | pixout | rdim => exact ⟨_, rfl⟩
  | cmd =>
    obtain ⟨t, ht⟩ := runCommand_completes v s
    exact ⟨respond (.ok 0) t, by rw [writeReg, writeRegEffect, ht, onNext_next]⟩

/-- Nothing the host does can leave the block stuck (R159). -/
theorem transact_completes (x : Txn) (s : State) : ∃ t, transact x s = .next t := by
  unfold transact
  split
  -- A register write is the one transaction that runs a command; every other arm gives its next state outright.
  case h_3 r _ _ => exact writeReg_completes r x.wdata s
  all_goals exact ⟨_, rfl⟩

/-- Settles O51: a read is answered from the buffers and registers, and an illegal one is a bus error. -/
theorem noReadHasASideEffect : Obligations.NoReadHasASideEffect := by
  intro s x rest h hread
  obtain ⟨t, ht⟩ := transact_completes x { s with host := rest }
  refine ⟨t, (step_event h).trans ht, ?_⟩
  obtain ⟨-, rfl⟩ | ⟨r, -, -, rfl⟩ | ⟨r, u, -, hwrite, -⟩ | ⟨a, n, -, -, rfl⟩ | ⟨a, n, -, hwrite, -⟩ |
    ⟨a, n, -, -, rfl⟩ := transact_cases ht
  · rfl
  · rfl
  · rw [hread] at hwrite; cases hwrite
  · rfl
  · rw [hread] at hwrite; cases hwrite
  · rfl

end Sys2Proof.Proofs
end

section
/-! PROOFS of the encoding family (30_encoding.md), part 1: the decoder and the encoder undo each other, and the words
that neither reaches are the ILLEGAL ones. -/

namespace Sys2Proof.Proofs

open Sys2Proof.Machine Sys2Proof.Laws

/-! ### The decoder and the encoder -/

theorem decode_encode (i : Instr) : decode (encode i) = .ok i := by
  cases i with
  | pixel imm16 => simp [decode, encode]
  | nop | decode | rot270 | hflip | convert => decide

/-- A word with RSV zero is put together from its two other fields (R81). -/
theorem cmdWord_of_fields {c : Word} {imm : Half} {op : BitVec 4} (hrsv : cmdRsv c = 0) (himm : cmdImm c = imm)
    (hop : cmdOp c = op) : cmdWord imm op = c :=
  cmd_fields_ext (by simp [hop]) (by simp [hrsv]) (by simp [himm])

/-- A branch of the decoder that answers a command has pinned down every field of the word. -/
theorem encode_of_decode {c : Word} {i : Instr} (h : decode c = .ok i) : encode i = c := by
  unfold decode at h
  split_ifs at h with hrsv hpixel himm hnop hdecode hrot270 hhflip hconvert <;> cases h
  · exact cmdWord_of_fields (not_not.1 hrsv) rfl hpixel
  · exact cmdWord_of_fields (not_not.1 hrsv) (not_not.1 himm) hnop
  · exact cmdWord_of_fields (not_not.1 hrsv) (not_not.1 himm) hdecode
  · exact cmdWord_of_fields (not_not.1 hrsv) (not_not.1 himm) hrot270
  · exact cmdWord_of_fields (not_not.1 hrsv) (not_not.1 himm) hhflip
  · exact cmdWord_of_fields (not_not.1 hrsv) (not_not.1 himm) hconvert

/-- Through the opcode table a word decodes as it does by itself: 32 bits lose nothing of it (R80). -/
theorem decodeTableWord_of_decode {c : Word} {i : Instr} (h : decode c = .ok i) :
    decodeTableWord 32 c.toNat = some i := by
  have hword : tableWord 32 c.toNat = c.toNat := Nat.mod_eq_of_lt c.isLt
  simp [decodeTableWord, hword, c.isLt, h]

/-- Settles O9: the decoder reads back the fields that the encoder put together. -/
theorem decodeOfEncode : Obligations.DecodeOfEncode := by
  intro i _
  exact ⟨decode_encode i, decodeTableWord_of_decode (decode_encode i)⟩

/-- Settles O10: the fields that select a command fix its word. -/
theorem encodeOfDecode : Obligations.EncodeOfDecode := fun _ _ => encode_of_decode

/-- Settles O12: nine closed runs of the decoder. -/
theorem decodeSampleWords : Obligations.DecodeSampleWords := by
  unfold Obligations.DecodeSampleWords
  decide

/-! ### The ILLEGAL words -/

/-- OP is reserved when it is none of the six of R82. -/
theorem op_reserved_iff (op : BitVec 4) :
    6 ≤ op.toNat ↔ op ≠ 0 ∧ op ≠ 1 ∧ op ≠ 2 ∧ op ≠ 3 ∧ op ≠ 4 ∧ op ≠ 5 := by
  revert op
  decide

/-- The fields of a legal word (R82): the three conditions of R85 fail. -/
theorem encode_fields (i : Instr) : (cmdOp (encode i)).toNat < 6 ∧ cmdRsv (encode i) = 0 ∧
    (cmdImm (encode i) = 0 ∨ cmdOp (encode i) = 1) := by
  cases i with
  | pixel imm16 => simp [encode]
  | nop | decode | rot270 | hflip | convert => decide

/-- The decoder's verdict ILLEGAL, by the three fields (R85). -/
theorem decode_illegal_iff (c : Word) : (∃ why, decode c = .illegal why) ↔
    (6 ≤ (cmdOp c).toNat ∨ cmdRsv c ≠ 0 ∨ (cmdImm c ≠ 0 ∧ cmdOp c ≠ 1)) := by
  constructor
  · rintro ⟨why, h⟩
    unfold decode at h
    split_ifs at h with hrsv hpixel himm hnop hdecode hrot270 hhflip hconvert
    · exact .inr (.inl hrsv)
    · exact .inr (.inr ⟨himm, hpixel⟩)
    · exact .inl ((op_reserved_iff _).2 ⟨hnop, hpixel, hdecode, hrot270, hhflip, hconvert⟩)
  · intro h
    cases hd : decode c with
    | illegal why => exact ⟨why, rfl⟩
    | ok i =>
      obtain rfl := encode_of_decode hd
      obtain ⟨hop, hrsv, himm⟩ := encode_fields i
      obtain h | h | ⟨himm', hop'⟩ := h
      · omega
      · exact absurd hrsv h
      · exact absurd himm (not_or.2 ⟨himm', hop'⟩)

/-- The step that writes an ILLEGAL word to CMD (R140, R172). -/
theorem step_illegalWord {s : State} {c : Word} {why : Illegal} {rest : List Event} (hd : decode c = .illegal why)
    (h : s.host = .txn (cmdWrite c) :: rest) :
    step s = .next (respond (.ok 0) (raiseCmdError .illegalCmd { s with host := rest })) := by
  rw [step_cmdWrite h, runCommand, hd, onNext_next]

/-- Settles O11, from the fields of an ILLEGAL word and the error that writing it records. -/
theorem illegalWordsExactly : Obligations.IllegalWordsExactly := by
  refine ⟨decode_illegal_iff, fun s c why rest hd h => ?_⟩
  rw [step_illegalWord hd h, raiseCmdError_eq]
  rfl

end Sys2Proof.Proofs
end

section
/-! PROOFS of the encoding family, part 2: the transactions that the lines of a host program issue (R87 to R89). -/

namespace Sys2Proof.Proofs

open Sys2Proof.Machine Sys2Proof.Laws

/-! ### Command lines (R87) -/

/-- Every command's operands pass R87's check. -/
theorem operandsOk_operands (i : Instr) : i.mnemonic.operandsOk i.operands = true := by
  cases i with
  | pixel imm16 => exact (MatchesTable.pixel imm16).1
  | nop | decode | rot270 | hflip | convert => rfl

/-- The assembler gives a command from its mnemonic and its operands. -/
theorem assembleCommand_operands (i : Instr) : assembleCommand i.mnemonic i.operands = some i := by
  unfold assembleCommand
  rw [if_pos (operandsOk_operands i)]
  cases i with
  | pixel imm16 => simp [Instr.mnemonic, Instr.operands]
  | nop | decode | rot270 | hflip | convert => rfl

theorem assembleCommand_refused {m : Mnemonic} {ops : List Nat} (h : m.operandsOk ops = false) :
    assembleCommand m ops = none :=
  if_neg (by simp [h])

/-- A command's line issues the write of its word. -/
theorem expandLine_command (i : Instr) :
    expandLine (.command i.mnemonic i.operands) = some [cmdWrite (encode i)] := by
  rw [expandLine, assembleCommand_operands, Option.map_some]

/-- A command line with operands that the assembler refuses emits nothing. -/
theorem expandLine_command_refused {m : Mnemonic} {ops : List Nat} (h : m.operandsOk ops = false) :
    expandLine (.command m ops) = none := by
  rw [expandLine, assembleCommand_refused h, Option.map_none]

/-- PIXEL takes exactly one operand. -/
theorem operandsOk_pixel {ops : List Nat} (h : ops.length ≠ 1) : Mnemonic.PIXEL.operandsOk ops = false := by
  match ops with
  | [] | _ :: _ :: _ => rfl
  | [_] => exact absurd rfl h

/-- Only PIXEL takes an operand. -/
theorem operandsOk_cons {m : Mnemonic} (h : m ≠ .PIXEL) (op : Nat) (ops : List Nat) :
    m.operandsOk (op :: ops) = false := by
  cases m with
  | PIXEL => exact absurd rfl h
  | NOP | DECODE | ROT270 | HFLIP | CONVERT => rfl

/-- A command word as a number: IMM16 in units of `2^16`, above OP (R81). -/
theorem cmdWord_toNat (imm : Half) (op : BitVec 4) : (cmdWord imm op).toNat = imm.toNat * 65536 + op.toNat := by
  have hrsv : (0 : BitVec 12).toNat = 0 := rfl
  rw [cmdWord, BitVec.toNat_append, BitVec.toNat_append, ← Nat.shiftLeft_add_eq_or_of_lt op.isLt,
    Nat.shiftLeft_eq, Nat.shiftLeft_eq, hrsv, Nat.or_zero]
  omega

/-- PIXEL's word for any operand, of which IMM16 holds the low 16 bits. -/
theorem encode_pixel_ofNat (w : Nat) :
    encode (.pixel (BitVec.ofNat 16 w)) = BitVec.ofNat 32 (w * 65536 + 1) := by
  apply BitVec.eq_of_toNat_eq
  have hop : (1 : BitVec 4).toNat = 1 := rfl
  rw [encode, cmdWord_toNat, hop, BitVec.toNat_ofNat, BitVec.toNat_ofNat]
  omega

/-- PIXEL's line with an operand that fits IMM16. -/
theorem expandLine_pixel {w : Nat} (h : w ≤ 0xFFFF) :
    expandLine (.command .PIXEL [w]) = some [cmdWrite (BitVec.ofNat 32 (w * 65536 + 1))] := by
  have hops : (Instr.pixel (BitVec.ofNat 16 w)).operands = [w] := by
    rw [Instr.operands, BitVec.toNat_ofNat, Nat.mod_eq_of_lt (by omega)]
  rw [← encode_pixel_ofNat, ← expandLine_command, hops]
  rfl

/-- Settles O57: the lines of the six commands, and the operand lists that the assembler refuses. -/
theorem commandLines : Obligations.CommandLines := by
  refine ⟨fun w => expandLine_pixel, fun w hw => ?_, fun ops hops => ?_, fun m op ops hm => ?_,
    expandLine_command .nop, expandLine_command .decode, expandLine_command .rot270, expandLine_command .hflip,
    expandLine_command .convert⟩
  · exact expandLine_command_refused (decide_eq_false (by omega))
  · exact expandLine_command_refused (operandsOk_pixel hops)
  · exact expandLine_command_refused (operandsOk_cons hm op ops)

/-! ### Programs of single-transaction lines (R89) -/

theorem expandProgram_cons (l : Line) (ls : List Line) : expandProgram (l :: ls) =
    (expandLine l).bind fun xs => (expandProgram ls).map (xs ++ ·) := by
  cases hl : expandLine l <;> cases hls : ls.mapM expandLine <;> simp [expandProgram, hl, hls]

/-- A program whose lines issue one transaction each issues those, in order, or nothing when one issues nothing. -/
theorem expandProgram_map {α : Type} {line : α → Line} {txn : α → Option Txn}
    (h : ∀ a, expandLine (line a) = (txn a).map ([·])) (as : List α) :
    expandProgram (as.map line) = as.mapM txn := by
  induction as with
  | nil => rfl
  | cons a as ih =>
    rw [List.map_cons, expandProgram_cons, h, ih, List.mapM_cons]
    cases txn a <;> cases as.mapM txn <;> rfl

/-! ### Lines inside and outside the window and the bus (R88) -/

/-- A write line inside the window and the bus. -/
theorem expandLine_wr {addr : HostAddr} {x : Nat} {w : Width} {size : BitVec 2} {v : Nat} (ha : AddrMeans addr x)
    (hw : WidthMeans w size) (hx : x < 0x80000) (hv : v < 2 ^ 32) :
    expandLine (.wr w addr v) = some [⟨.write, BitVec.ofNat 19 x, size, BitVec.ofNat 32 v⟩] := by
  obtain rfl := addrOffset_of_means ha
  obtain rfl := widthCode_of_means hw
  rw [expandLine, lineTxn_some _ _ hx hv, Option.map_some]

/-- A read line inside the window. -/
theorem expandLine_rd {addr : HostAddr} {x : Nat} {w : Width} {size : BitVec 2} (ha : AddrMeans addr x)
    (hw : WidthMeans w size) (hx : x < 0x80000) :
    expandLine (.rd w addr) = some [⟨.read, BitVec.ofNat 19 x, size, 0⟩] := by
  obtain rfl := addrOffset_of_means ha
  obtain rfl := widthCode_of_means hw
  rw [expandLine, lineTxn_some _ _ hx (by decide), Option.map_some]
  rfl

/-- A read line with an expected result that fits the bus issues what `rd32` does. -/
theorem expandLine_rdExpect (addr : HostAddr) {v : Nat} (hv : v < 2 ^ 32) :
    expandLine (.rdExpect addr v) = expandLine (.rd .w32 addr) := by
  simp only [expandLine, expectedResponse_some hv, Option.bind_some]

/-- Settles O58: each pseudo-instruction issues what the lines of R89's table issue, and those are single
transactions. -/
theorem pseudoInstructionExpansions : Obligations.PseudoInstructionExpansions := by
  refine ⟨rfl, fun n => rfl, fun i w => rfl, fun k => ?_, fun region a v n => ?_,
    fun addr x w size v ha hw hx hv => ⟨expandLine_wr ha hw hx hv, ⟨0, expandLine_rd ha hw hx⟩, ⟨0, ?_⟩,
      expectedResponse_some hv⟩⟩
  · exact (expandProgram_map (line := fun a => .rd .w8 (.buf .rast a)) (fun _ => rfl)
      [3 * k, 3 * k + 1, 3 * k + 2]).symm
  · exact (expandProgram_map (fun _ => rfl) (List.range n)).symm
  · rw [expandLine_rdExpect addr hv]
    exact expandLine_rd ha (.inr (.inr ⟨rfl, rfl⟩)) hx

/-- Settles O60 (log entry 13). -/
theorem linesOutsideTheBusIssueNothing : Obligations.LinesOutsideTheBusIssueNothing := by
  intro addr x w v ha
  obtain rfl := addrOffset_of_means ha
  refine ⟨fun hx => ?_, fun hout => ⟨?_, ?_⟩, expectedResponse_none⟩
  · rw [expandLine, lineTxn_none _ _ (.inl hx), Option.map_none]
  · rw [expandLine, lineTxn_none _ _ hout, Option.map_none]
  · by_cases hv : v < 2 ^ 32
    · rw [expandLine_rdExpect addr hv, expandLine, lineTxn_none _ _ (.inl (by omega)), Option.map_none]
    · rw [expandLine, expectedResponse_none (by omega), Option.bind_none]

end Sys2Proof.Proofs
end

section
/-! PROOFS of the decoder family (40_decoder.md): the colour expansion DEC565 and the commands PIXEL and DECODE. -/

namespace Sys2Proof.Proofs

open Sys2Proof.Machine Sys2Proof.Laws

/-! ### The colour expansion (R100 to R102) -/

/-- A field of `n` bits masked out of a pixel word and shifted left by `k` within a byte: no bit leaves the byte
(R102). -/
theorem shiftedField_toNat (w mask : Half) (lo : Nat) {n k : Nat} (hmask : mask.toNat = 2 ^ n - 1) (hnk : n + k = 8) :
    (((w >>> lo) &&& mask).setWidth 8 <<< k).toNat = w.toNat / 2 ^ lo % 2 ^ n * 2 ^ k := by
  have hfield : w.toNat / 2 ^ lo % 2 ^ n < 2 ^ n := Nat.mod_lt _ (Nat.two_pow_pos n)
  have hbyte : w.toNat / 2 ^ lo % 2 ^ n * 2 ^ k < 2 ^ 8 := by
    rw [← hnk, Nat.pow_add]
    exact Nat.mul_lt_mul_of_pos_right hfield (Nat.two_pow_pos k)
  have hwide : w.toNat / 2 ^ lo % 2 ^ n < 2 ^ 8 := (Nat.le_mul_of_pos_right _ (Nat.two_pow_pos k)).trans_lt hbyte
  rw [BitVec.toNat_shiftLeft, BitVec.toNat_setWidth, BitVec.toNat_and, BitVec.toNat_ushiftRight, hmask,
    Nat.and_two_pow_sub_one_eq_mod, Nat.shiftRight_eq_div_pow, Nat.mod_eq_of_lt hwide, Nat.shiftLeft_eq,
    Nat.mod_eq_of_lt hbyte]

theorem dec565_r_toNat (w : Half) : (dec565 w).r.toNat = w.toNat / 2 ^ 11 % 2 ^ 5 * 2 ^ 3 :=
  shiftedField_toNat w 0x1F 11 rfl rfl

theorem dec565_g_toNat (w : Half) : (dec565 w).g.toNat = w.toNat / 2 ^ 5 % 2 ^ 6 * 2 ^ 2 :=
  shiftedField_toNat w 0x3F 5 rfl rfl

theorem dec565_b_toNat (w : Half) : (dec565 w).b.toNat = w.toNat % 2 ^ 5 * 2 ^ 3 := by
  have h := shiftedField_toNat w 0x1F 0 (n := 5) (k := 3) rfl rfl
  rwa [BitVec.ushiftRight_zero, Nat.pow_zero, Nat.div_one] at h

/-- The value of a field with `k` zeros below it. -/
theorem fieldAboveZeros_toNat (w : Half) (lo n k : Nat) :
    (w.extractLsb' lo n ++ 0#k).toNat = w.toNat / 2 ^ lo % 2 ^ n * 2 ^ k := by
  simp [BitVec.toNat_append, Nat.shiftLeft_eq, Nat.shiftRight_eq_div_pow]

/-- Settles O13, by the values of the two sides: each channel is its field times a power of two. -/
theorem dec565IsAShiftOfEachField : Obligations.Dec565IsAShiftOfEachField := by
  refine ⟨fun w => ⟨?_, ?_, ?_⟩, by decide, by decide⟩ <;> apply BitVec.eq_of_toNat_eq
  · rw [dec565_r_toNat, fieldAboveZeros_toNat]
  · rw [dec565_g_toNat, fieldAboveZeros_toNat]
  · rw [dec565_b_toNat, fieldAboveZeros_toNat, Nat.pow_zero, Nat.div_one]

/-- Shifting out the zeros below a field gives the field back. -/
theorem shiftBack_aboveZeros {n : Nat} (x : BitVec n) (k m : Nat) :
    ((x ++ 0#k) >>> k).setWidth m = x.setWidth m := by
  apply BitVec.eq_of_getLsbD_eq
  intro i hi
  simp [BitVec.getLsbD_append]

/-- The channels shifted back are the fields, which make up the word (R102). -/
theorem dec565_recovers (w : Half) : w = (((dec565 w).r >>> 3).setWidth 16 <<< 11) |||
    (((dec565 w).g >>> 2).setWidth 16 <<< 5) ||| ((dec565 w).b >>> 3).setWidth 16 := by
  obtain ⟨hr, hg, hb⟩ := dec565IsAShiftOfEachField.1 w
  rw [hr, hg, hb, shiftBack_aboveZeros, shiftBack_aboveZeros, shiftBack_aboveZeros]
  apply BitVec.eq_of_getLsbD_eq
  intro i hi
  by_cases h5 : i < 5
  · simp [h5, hi, show i < 11 by omega]
  · by_cases h11 : i < 11
    · simp [h5, h11, hi, show i - 5 < 6 by omega, show 5 + (i - 5) = i by omega]
    · simp [h5, h11, hi, show i - 11 < 5 by omega, show 11 + (i - 11) = i by omega, show ¬ i - 5 < 6 by omega]

/-- Settles O14: the fields times 8, 4 and 8 stay below 256, and the word is recovered from them. -/
theorem dec565LosesNoBit : Obligations.Dec565LosesNoBit := by
  refine ⟨fun w => ?_, fun w w' h => ?_⟩
  · have hw := w.isLt
    have hr := dec565_r_toNat w
    have hg := dec565_g_toNat w
    have hb := dec565_b_toNat w
    refine ⟨?_, ?_, ?_, ?_, ?_, ?_, dec565_recovers w⟩ <;> omega
  · rw [dec565_recovers w, h, ← dec565_recovers w']

/-! ### PIXEL (R103) -/

/-- PIXEL's word as R103 writes it is the encoder's. -/
theorem encode_pixel (w : Half) : encode (.pixel w) = w ++ 0x0001#16 :=
  (BitVec.append_assoc ..).trans rfl

/-- Settles O15: the word is the encoder's, and the effect is PIXEL's own. -/
theorem pixelCommand : Obligations.PixelCommand := by
  refine ⟨fun w => ?_, fun c _ hrsv => (decode_illegal_iff c).2 (.inr (.inl hrsv)), fun w s => exec_eq _ s,
    fun s => ⟨exec_eq _ s, exec_eq _ s, exec_eq _ s⟩⟩
  rw [← encode_pixel, decode_encode]

/-! ### DECODE (R106, R107) -/

/-- A command other than PIXEL has no word with a reserved field not zero (R85). -/
theorem reservedFieldsIllegal {op : BitVec 4} (hop : op ≠ 1) : ReservedFieldsIllegal op := by
  rintro c rfl (hrsv | himm)
  · exact (decode_illegal_iff c).2 (.inr (.inl hrsv))
  · exact (decode_illegal_iff c).2 (.inr (.inr ⟨himm, hop⟩))

/-- A command that fails its size check leaves DECODE's failure, whether it is DECODE or CONVERT (R145). -/
theorem exec_sizeMismatch {s : State} {i : Instr} (hi : i = .decode ∨ i = .convert)
    (h : s.len.toNat ≠ 2 * s.geom.W.toNat * s.geom.H.toNat) :
    exec i s = .next (raiseCmdError .sizeMismatch (clearRaster s)) := by
  obtain rfl | rfl := hi
  · rw [exec_eq, commandEffect, runDecode_fail h]
  · rw [exec_eq, commandEffect, runConvert_fail h, runDecode_fail h]

/-- The failure of DECODE as one update (R106, R172). -/
theorem exec_decode_fail {s : State} (h : s.len.toNat ≠ 2 * s.geom.W.toNat * s.geom.H.toNat) :
    exec .decode s = .next { s with
      rv := false, cw := 0, ch := 0, err := true, ecode := if s.err = true then s.ecode else 1 } := by
  rw [exec_sizeMismatch (.inl rfl) h, raiseCmdError_eq]
  rfl

/-- The success of DECODE: the pixel loop, and then a valid raster (R106). -/
theorem exec_decode_ok {s : State} (h : s.len.toNat = 2 * s.geom.W.toNat * s.geom.H.toNat) :
    exec .decode s = .next (setRaster s.geom.W s.geom.H (decodeFrame s)) := by
  rw [exec_eq, commandEffect, runDecode_ok h]

/-- An odd length is never `2*W*H` (R107). -/
theorem len_mismatch_of_odd {s : State} (h : s.len.toNat % 2 ≠ 0) :
    s.len.toNat ≠ 2 * s.geom.W.toNat * s.geom.H.toNat := by
  rw [Nat.mul_assoc]
  omega

/-- Settles O17: the two outcomes of the size check. -/
theorem decodeCommand : Obligations.DecodeCommand := by
  refine ⟨by decide, reservedFieldsIllegal (by decide), fun s h => exec_decode_fail (h.elim len_mismatch_of_odd id),
    fun s _ hlen => ⟨_, exec_decode_ok hlen, rfl, fun i hi => pixelAt_decodeFrame hi, fun a ha => ?_⟩⟩
  rw [setRaster_rast, decodeFrame_rast, memGet_putPixels_outside]
  rwa [decodedPixels_length]

/-- The size check of R106 fails exactly for a length other than `2*W*H` (R107). -/
theorem sizeCheck_fails_iff (s : State) :
    (s.len.toNat % 2 ≠ 0 ∨ s.len.toNat / 2 ≠ s.geom.W.toNat * s.geom.H.toNat) ↔
      s.len.toNat ≠ 2 * s.geom.W.toNat * s.geom.H.toNat := by
  rw [Nat.mul_assoc]
  omega

/-- Settles O18: the failure of either command clears the raster's validity and records the error, no more. -/
theorem sizeMismatchWritesNoPixel : Obligations.SizeMismatchWritesNoPixel := by
  refine fun s => ⟨sizeCheck_fails_iff s, fun h i hi =>
    ⟨_, exec_sizeMismatch hi ((sizeCheck_fails_iff s).1 h), ?_, ?_, fun herr => ?_⟩⟩
  · rw [raiseCmdError_rast, clearRaster_rast]
  · rw [raiseCmdError_err]
  · simp [herr, ecodeOf]

/-- Settles O20: every decoded pixel is some DEC565, and its zeros do not depend on the word. -/
theorem decodedChannelsHaveLowBitsZero : Obligations.DecodedChannelsHaveLowBitsZero := by
  intro s t hlen h i hi
  obtain rfl := Host.Outcome.next.inj ((exec_decode_ok hlen).symm.trans h)
  obtain ⟨hr, hg, hb⟩ := dec565IsAShiftOfEachField.1 (ibufWord s.ibuf i s.draws)
  refine ⟨_, pixelAt_decodeFrame hi, ?_, ?_, ?_⟩
  · rw [hr, BitVec.extractLsb'_append_eq_right]; rfl
  · rw [hg, BitVec.extractLsb'_append_eq_right]; rfl
  · rw [hb, BitVec.extractLsb'_append_eq_right]; rfl

end Sys2Proof.Proofs
end

section
/-! PROOFS of the transform family (41_transform.md): ROT270 and HFLIP. First what each does on every state, then the
laws of R125 and R126, which compose the two moves of coordinates on a valid raster. -/

namespace Sys2Proof.Proofs

open Sys2Proof.Machine Sys2Proof.Laws

/-! ### The two commands on every state (R121, R124) -/

/-- Either transform without a valid raster records NOT_READY and does no more (R121, R124, R172). -/
theorem exec_notReady {s : State} {i : Instr} (hi : i = .rot270 ∨ i = .hflip) (hrv : s.rv = false) :
    exec i s = .next { s with err := true, ecode := if s.err = true then s.ecode else 3 } := by
  have hfail : exec i s = .next (raiseCmdError .notReady s) := by
    obtain rfl | rfl := hi
    · rw [exec_eq, commandEffect, runRot270_fail hrv]
    · rw [exec_eq, commandEffect, runHflip_fail hrv]
  rw [hfail, raiseCmdError_eq]
  rfl

/-- ROT270 on a valid raster swaps the dimensions, reads the snapshot, and changes RAST and no other field. -/
theorem runRot270_eq {s : State} (hrv : s.rv = true) : runRot270 s = { s with
    cw := s.ch, ch := s.cw, rast := (runRot270 s).rast, draws := s.draws + 3 * (s.cw.toNat * s.ch.toNat) } := by
  simp [runRot270_ok hrv, setRaster, moveRaster, hrv]

/-- HFLIP on a valid raster reads the snapshot, and changes RAST and no other field. -/
theorem runHflip_eq {s : State} (hrv : s.rv = true) : runHflip s = { s with
    rast := (runHflip s).rast, draws := s.draws + 3 * (s.cw.toNat * s.ch.toNat) } := by
  rw [runHflip_ok hrv]
  rfl

/-- Pixel `k` after ROT270 is pixel `rotSource k` of the snapshot (R121). -/
theorem pixelAt_runRot270 {s : State} (hrv : s.rv = true) {k : Nat} (hk : k < s.cw.toNat * s.ch.toNat) :
    pixelAt (runRot270 s) k =
      writtenPixel (readPixel s.rast (rotSource s.cw.toNat s.ch.toNat k) s.draws) := by
  rw [runRot270_ok hrv]
  exact pixelAt_moveRaster hk (rotSource_lt hk)

/-- Pixel `k` after HFLIP is pixel `flipSource k` of the snapshot (R124). -/
theorem pixelAt_runHflip {s : State} (hrv : s.rv = true) {k : Nat} (hk : k < s.cw.toNat * s.ch.toNat) :
    pixelAt (runHflip s) k = writtenPixel (readPixel s.rast (flipSource s.cw.toNat k) s.draws) := by
  rw [runHflip_ok hrv]
  exact pixelAt_moveRaster hk (flipSource_lt hk)

/-- The pixel loop changes no byte beyond the raster's pixels. -/
theorem memGet_moveRaster_beyond (source : Nat → Nat) (s : State) {a : Nat}
    (ha : 3 * (s.cw.toNat * s.ch.toNat) ≤ a) : memGet (moveRaster source s).rast a = memGet s.rast a := by
  rw [moveRaster_rast, memGet_putPixels_outside]
  rwa [movedPixels_length]

/-- The bound of a pixel number after the dimensions are swapped (R121). -/
theorem pixel_lt_swapped {cw ch x y : Nat} (hx : x < ch) (hy : y < cw) : y * ch + x < cw * ch :=
  Nat.mul_comm cw ch ▸ pixel_lt hx hy

/-- Settles O21: the guard on RV, and the pixel loop at the coordinates of `rotSource`. -/
theorem rot270Command : Obligations.Rot270Command := by
  refine ⟨by decide, reservedFieldsIllegal (by decide), fun s => exec_notReady (.inl rfl),
    fun s hrv => ⟨runRot270 s, exec_eq .rot270 s, runRot270_eq hrv, fun y2 x2 hy hx => ?_, fun a ha => ?_⟩⟩
  · rw [pixelAt_runRot270 hrv (pixel_lt_swapped hx hy), rotSource_pixel hx]
  · rw [runRot270_ok hrv]
    exact memGet_moveRaster_beyond _ s ha

/-- Settles O22: the guard on RV, and the pixel loop at the coordinates of `flipSource`. -/
theorem hflipCommand : Obligations.HflipCommand := by
  refine ⟨by decide, reservedFieldsIllegal (by decide), fun s => exec_notReady (.inr rfl),
    fun s hrv => ⟨runHflip s, exec_eq .hflip s, runHflip_eq hrv, fun y x hy hx => ?_, fun a ha => ?_⟩⟩
  · rw [pixelAt_runHflip hrv (pixel_lt hx hy), flipSource_pixel hx]
  · rw [runHflip_ok hrv]
    exact memGet_moveRaster_beyond _ s ha

/-! ### Valid rasters -/

/-- A state that meets the invariant and holds a valid raster of width `cw` and height `ch` (R29, R30). -/
structure ValidRaster (s : State) (cw ch : Half) : Prop where
  inv : s.Inv
  rv : s.rv = true
  cw_eq : s.cw = cw
  ch_eq : s.ch = ch

theorem validRaster_of_inv {s : State} (h : s.Inv) (hrv : s.rv = true) : ValidRaster s s.cw s.ch :=
  ⟨h, hrv, rfl, rfl⟩

section
variable {s t u : State} {cw ch : Half} {x y k : Nat}

theorem ValidRaster.area (h : ValidRaster s cw ch) : cw.toNat * ch.toNat = npix s.geom :=
  h.cw_eq ▸ h.ch_eq ▸ dimsFit_area (h.inv.dims h.rv)

theorem ValidRaster.readPixel_written (h : ValidRaster s cw ch) (d : Nat) (hk : k < cw.toNat * ch.toNat) :
    writtenPixel (readPixel s.rast k d) = pixelAt s k :=
  readPixel_of_rasterWritten (h.inv.written h.rv) d (h.area ▸ hk)

/-- ROT270 leaves a valid raster with the dimensions swapped (R121). -/
theorem ValidRaster.rot270 (h : ValidRaster s cw ch) : ValidRaster (runRot270 s) ch cw where
  inv := inv_runRot270 h.inv
  rv := (runRot270_rv s).trans h.rv
  cw_eq := by rw [runRot270_ok h.rv, setRaster_cw, h.ch_eq]
  ch_eq := by rw [runRot270_ok h.rv, setRaster_ch, h.cw_eq]

/-- HFLIP leaves a valid raster with the same dimensions (R124). -/
theorem ValidRaster.hflip (h : ValidRaster s cw ch) : ValidRaster (runHflip s) cw ch where
  inv := inv_runHflip h.inv
  rv := (runHflip_rv s).trans h.rv
  cw_eq := by rw [runHflip_ok h.rv, moveRaster_cw, h.cw_eq]
  ch_eq := by rw [runHflip_ok h.rv, moveRaster_ch, h.ch_eq]

theorem ValidRaster.pixelAt_rot270 (h : ValidRaster s cw ch) (hk : k < cw.toNat * ch.toNat) :
    pixelAt (runRot270 s) k = pixelAt s (rotSource cw.toNat ch.toNat k) := by
  cases h.cw_eq
  cases h.ch_eq
  rw [pixelAt_runRot270 h.rv hk, h.readPixel_written _ (rotSource_lt hk)]

theorem ValidRaster.pixelAt_hflip (h : ValidRaster s cw ch) (hk : k < cw.toNat * ch.toNat) :
    pixelAt (runHflip s) k = pixelAt s (flipSource cw.toNat k) := by
  cases h.cw_eq
  cases h.ch_eq
  rw [pixelAt_runHflip h.rv hk, h.readPixel_written _ (flipSource_lt hk)]

/-! ### The moves of coordinates, and their compositions -/

/-- ROT270: output `(x, y)` is input `(cw-1-y, x)` (R121). -/
theorem ValidRaster.rotated (h : ValidRaster s cw ch) (hx : x < ch.toNat) (hy : y < cw.toNat) :
    pixelAt (runRot270 s) (y * ch.toNat + x) = pixelAt s (x * cw.toNat + (cw.toNat - 1 - y)) := by
  rw [h.pixelAt_rot270 (pixel_lt_swapped hx hy), rotSource_pixel hx]

/-- HFLIP: output `(x, y)` is input `(cw-1-x, y)` (R124). -/
theorem ValidRaster.mirrored (h : ValidRaster s cw ch) (hx : x < cw.toNat) (hy : y < ch.toNat) :
    pixelAt (runHflip s) (y * cw.toNat + x) = pixelAt s (y * cw.toNat + (cw.toNat - 1 - x)) := by
  rw [h.pixelAt_hflip (pixel_lt hx hy), flipSource_pixel hx]

/-- Two rotations are the half turn (R126, law 2). -/
theorem ValidRaster.halfTurned (h : ValidRaster s cw ch) (hx : x < cw.toNat) (hy : y < ch.toNat) :
    pixelAt (runRot270 (runRot270 s)) (y * cw.toNat + x) =
      pixelAt s ((ch.toNat - 1 - y) * cw.toNat + (cw.toNat - 1 - x)) := by
  rw [h.rot270.rotated hx hy, h.rotated (by omega) hx]

/-- Rotate, then mirror, is the reflection about the anti-diagonal (R125). -/
theorem ValidRaster.antiTransposed (h : ValidRaster s cw ch) (hx : x < ch.toNat) (hy : y < cw.toNat) :
    pixelAt (runHflip (runRot270 s)) (y * ch.toNat + x) =
      pixelAt s ((ch.toNat - 1 - x) * cw.toNat + (cw.toNat - 1 - y)) := by
  rw [h.rot270.mirrored hx hy, h.rotated (by omega) hy]

/-- The reflection of a coordinate below `n` is its own inverse. -/
theorem reflect_reflect {n i : Nat} (hi : i < n) : n - 1 - (n - 1 - i) = i := by omega

/-! ### What the transforms leave unchanged -/

/-- The states agree in every field but RDIM, the bytes of RAST and the draw counter. -/
def SameBesidesRaster (s t : State) : Prop := t = { s with cw := t.cw, ch := t.ch, rast := t.rast, draws := t.draws }

theorem SameBesidesRaster.trans (h : SameBesidesRaster s t) (h' : SameBesidesRaster t u) : SameBesidesRaster s u := by
  calc u = { t with cw := u.cw, ch := u.ch, rast := u.rast, draws := u.draws } := h'
    _ = { s with cw := u.cw, ch := u.ch, rast := u.rast, draws := u.draws } := by rw [h]

theorem ValidRaster.rot270_same (h : ValidRaster s cw ch) : SameBesidesRaster s (runRot270 s) := by
  rw [SameBesidesRaster, runRot270_eq h.rv]

theorem ValidRaster.hflip_same (h : ValidRaster s cw ch) : SameBesidesRaster s (runHflip s) := by
  rw [SameBesidesRaster, runHflip_eq h.rv]

/-- No byte beyond the pixels of a valid raster is written, for they fill RAST (R32). -/
theorem ValidRaster.memGet_beyond (h : ValidRaster s cw ch) {a : Nat} (ha : 3 * (cw.toNat * ch.toNat) ≤ a) :
    memGet s.rast a = none := by
  refine memGet_eq_none fun c hc => ?_
  have hwithin := h.inv.rastWithin c hc
  rw [rbytes, ← h.area] at hwithin
  omega

/-- Valid rasters of the same dimensions whose pixels are the same are the same buffer, for both are in canonical
form and neither has a byte beyond its pixels. -/
theorem ValidRaster.rast_eq (hs : ValidRaster s cw ch) (ht : ValidRaster t cw ch)
    (hpix : ∀ x y, x < cw.toNat → y < ch.toNat → pixelAt t (y * cw.toNat + x) = pixelAt s (y * cw.toNat + x)) :
    t.rast = s.rast := by
  refine memory_ext ht.inv.rastForm hs.inv.rastForm
    (memGet_eq_of_pixels (n := cw.toNat * ch.toNat) (fun k hk => ?_) fun a ha => ?_)
  · obtain ⟨x, y, hx, hy, rfl⟩ := exists_pixel hk
    simpa only [pixelAt, Prod.mk.injEq] using hpix x y hx hy
  · rw [ht.memGet_beyond ha, hs.memGet_beyond ha]

/-- Transforms that bring every pixel back to its place restore the state but for the draw counter. -/
theorem ValidRaster.restored (hs : ValidRaster s cw ch) (ht : ValidRaster t cw ch) (hsame : SameBesidesRaster s t)
    (hpix : ∀ x y, x < cw.toNat → y < ch.toNat → pixelAt t (y * cw.toNat + x) = pixelAt s (y * cw.toNat + x)) :
    t = { s with draws := t.draws } := by
  rw [SameBesidesRaster, hs.rast_eq ht hpix, ht.cw_eq, ht.ch_eq, ← hs.cw_eq, ← hs.ch_eq] at hsame
  exact hsame

end

/-! ### The laws of R120 to R126 -/

/-- Settles O23: each move of coordinates, at the output pixel where the input pixel goes. -/
theorem transformsMoveWrittenPixels : Obligations.TransformsMoveWrittenPixels := by
  intro s hinv hrv
  have h := validRaster_of_inv hinv hrv
  refine ⟨⟨runRot270 s, exec_eq .rot270 s, fun x y hx hy => ?_⟩,
    ⟨runHflip s, exec_eq .hflip s, fun x y hx hy => ?_⟩⟩
  · rw [h.rotated hy (by omega), reflect_reflect hx]
  · rw [h.mirrored (by omega) hy, reflect_reflect hx]

/-- Settles O24, by composing the two moves. -/
theorem rotateThenMirrorIsAntiTranspose : Obligations.RotateThenMirrorIsAntiTranspose := by
  intro s hinv hrv
  have h := validRaster_of_inv hinv hrv
  exact ⟨runRot270 s, runHflip (runRot270 s), exec_eq .rot270 s, exec_eq .hflip _, h.rot270.hflip.cw_eq,
    h.rot270.hflip.ch_eq, fun x2 y2 => h.antiTransposed⟩

/-- Settles O25: the rotation's own reflection of `x` undoes the mirror's. -/
theorem mirrorThenRotateIsTranspose : Obligations.MirrorThenRotateIsTranspose := by
  intro s hinv hrv
  have h := validRaster_of_inv hinv hrv
  refine ⟨runHflip s, runRot270 (runHflip s), exec_eq .hflip s, exec_eq .rot270 _, h.hflip.rot270.cw_eq,
    h.hflip.rot270.ch_eq, fun x y hx hy => ?_⟩
  rw [h.hflip.rotated hy hx, h.mirrored (by omega) hy, reflect_reflect hx]

/-- Settles O26: the mirror's reflection of `x`, twice. -/
theorem mirrorTwiceIsIdentity : Obligations.MirrorTwiceIsIdentity := by
  intro s hinv hrv
  have h := validRaster_of_inv hinv hrv
  refine ⟨runHflip s, runHflip (runHflip s), exec_eq .hflip s, exec_eq .hflip _,
    h.restored h.hflip.hflip (h.hflip_same.trans h.hflip.hflip_same) fun x y hx hy => ?_⟩
  rw [h.hflip.mirrored hx hy, h.mirrored (by omega) hy, reflect_reflect hx]

/-- Settles O27: two rotations are a half turn, and a half turn twice is the identity. -/
theorem fourRotationsAreIdentity : Obligations.FourRotationsAreIdentity := by
  intro s hinv hrv
  have h := validRaster_of_inv hinv hrv
  have h2 := h.rot270.rot270
  refine ⟨runRot270 s, runRot270 (runRot270 s), runRot270 (runRot270 (runRot270 s)),
    runRot270 (runRot270 (runRot270 (runRot270 s))), exec_eq .rot270 _, exec_eq .rot270 _, exec_eq .rot270 _,
    exec_eq .rot270 _, h2.cw_eq, h2.ch_eq, fun x y hx hy => ?_,
    h.restored h2.rot270.rot270 ?_ fun x y hx hy => ?_⟩
  · rw [h.halfTurned (by omega) (by omega), reflect_reflect hx, reflect_reflect hy]
  · exact (h.rot270_same.trans h.rot270.rot270_same).trans (h2.rot270_same.trans h2.rot270.rot270_same)
  · rw [h2.halfTurned hx hy, h.halfTurned (by omega) (by omega), reflect_reflect hx, reflect_reflect hy]

/-- Settles O28: the anti-diagonal reflection, twice. -/
theorem sourceTransformIsItsOwnInverse : Obligations.SourceTransformIsItsOwnInverse := by
  intro s hinv hrv
  have h := validRaster_of_inv hinv hrv
  have h2 := h.rot270.hflip
  refine ⟨runRot270 s, runHflip (runRot270 s), runRot270 (runHflip (runRot270 s)),
    runHflip (runRot270 (runHflip (runRot270 s))), exec_eq .rot270 _, exec_eq .hflip _, exec_eq .rot270 _,
    exec_eq .hflip _, h.restored h2.rot270.hflip ?_ fun x y hx hy => ?_⟩
  · exact (h.rot270_same.trans h.rot270.hflip_same).trans (h2.rot270_same.trans h2.rot270.hflip_same)
  · rw [h2.antiTransposed hx hy, h.antiTransposed (by omega) (by omega), reflect_reflect hx, reflect_reflect hy]

/-! ### The multiset of pixels (R126, law 6) -/

/-- A pixel number is that of one column and row only (R33). -/
theorem pixel_inj {cw x y x' y' : Nat} (hx : x < cw) (hx' : x' < cw) (h : y * cw + x = y' * cw + x') :
    x = x' ∧ y = y' := by
  constructor
  · rw [← pixel_mod (y := y) hx, h, pixel_mod hx']
  · rw [← pixel_div (y := y) hx, h, pixel_div hx']

theorem rotSource_inj {cw ch k l : Nat} (hk : k < cw * ch) (hl : l < cw * ch)
    (h : rotSource cw ch k = rotSource cw ch l) : k = l := by
  obtain ⟨x, y, hx, hy, rfl⟩ := exists_pixel (Nat.mul_comm cw ch ▸ hk)
  obtain ⟨x', y', hx', hy', rfl⟩ := exists_pixel (Nat.mul_comm cw ch ▸ hl)
  rw [rotSource_pixel hx, rotSource_pixel hx'] at h
  obtain ⟨hcol, rfl⟩ := pixel_inj (by omega) (by omega) h
  rw [← reflect_reflect hy, hcol, reflect_reflect hy']

theorem flipSource_inj {cw ch k l : Nat} (hk : k < cw * ch) (hl : l < cw * ch)
    (h : flipSource cw k = flipSource cw l) : k = l := by
  obtain ⟨x, y, hx, hy, rfl⟩ := exists_pixel hk
  obtain ⟨x', y', hx', hy', rfl⟩ := exists_pixel hl
  rw [flipSource_pixel hx, flipSource_pixel hx'] at h
  obtain ⟨hcol, rfl⟩ := pixel_inj (by omega) (by omega) h
  rw [← reflect_reflect hx, hcol, reflect_reflect hx']

/-- An injection of the numbers below `n` into themselves permutes them. -/
theorem map_range_perm {f : Nat → Nat} {n : Nat} (hlt : ∀ {k}, k < n → f k < n)
    (hinj : ∀ {k l}, k < n → l < n → f k = f l → k = l) : ((List.range n).map f).Perm (List.range n) := by
  have hnodup : ((List.range n).map f).Nodup :=
    List.nodup_range.map_on fun k hk l hl => hinj (List.mem_range.1 hk) (List.mem_range.1 hl)
  have hsub : (List.range n).map f ⊆ List.range n := fun a ha => by
    obtain ⟨k, hk, rfl⟩ := List.mem_map.1 ha
    exact List.mem_range.2 (hlt (List.mem_range.1 hk))
  exact (hnodup.subperm hsub).perm_of_length_le (by simp)

/-- A move of pixels by an injection of the pixel numbers into themselves keeps the multiset of pixels. -/
theorem pixels_perm_of_moved {s t : State} {source : Nat → Nat} {n : Nat}
    (hmoved : ∀ {k}, k < n → pixelAt t k = pixelAt s (source k)) (hlt : ∀ {k}, k < n → source k < n)
    (hinj : ∀ {k l}, k < n → l < n → source k = source l → k = l) :
    ((List.range n).map (pixelAt t)).Perm ((List.range n).map (pixelAt s)) := by
  have heq : (List.range n).map (pixelAt t) = ((List.range n).map source).map (pixelAt s) := by
    rw [List.map_map]
    exact List.map_congr_left fun k hk => hmoved (List.mem_range.1 hk)
  rw [heq]
  exact (map_range_perm hlt hinj).map _

/-- Settles O29: the sources of both transforms are injections of the pixel numbers into themselves. -/
theorem transformsPermutePixels : Obligations.TransformsPermutePixels := by
  intro s t i hinv hrv hi hexec
  have h := validRaster_of_inv hinv hrv
  obtain rfl := Host.Outcome.next.inj ((exec_eq i s).symm.trans hexec)
  rw [← h.area]
  obtain rfl | rfl := hi
  · exact pixels_perm_of_moved h.pixelAt_rot270 rotSource_lt rotSource_inj
  · exact pixels_perm_of_moved h.pixelAt_hflip flipSource_lt flipSource_inj

end Sys2Proof.Proofs
end

section
/-! PROOFS of the control family (42_pipeline_control.md), part 1: the completion of each event, the command that a
write to CMD runs, NOP, and what the error record has to do with a command's effect. -/

namespace Sys2Proof.Proofs

open Sys2Proof.Machine Sys2Proof.Laws

/-! ### The completion of each event (R142, R158, R159) -/

/-- No command touches the queue or the responses (R140). -/
theorem commandEffect_bus (i : Instr) (s : State) :
    (commandEffect i s).host = s.host ∧ (commandEffect i s).responses = s.responses := by
  by_cases h : ∃ w, i = .pixel w
  · obtain ⟨w, rfl⟩ := h
    exact ⟨rfl, rfl⟩
  · have hk := commandEffect_keeps s (not_exists.1 h)
    exact ⟨hk.host, hk.responses⟩

theorem step_completes (s : State) : ∃ t, step s = .next t := by
  rcases h : s.host with _ | ⟨e, rest⟩
  · exact ⟨s, step_idle h⟩
  · rw [step_event h]
    cases e with
    | txn x => exact transact_completes x _
    | reset | resetDuringCmd c => exact ⟨_, rfl⟩

/-- A step takes the first event from the queue, if there is one. -/
theorem StepChange.host_eq {s t : State} (hst : StepChange s t) : t.host = s.host.tail := by
  cases hst with
  | idle h => rw [h, List.tail_nil]
  | reset rest h | resetDuringCmd c rest h | busError x rest h | read x rest h | writeReadOnly x rest h
  | writeLen v rest h | writeInput x rest h => rw [h]; rfl
  | illegal c rest h | writeStatus v rest h => simp [h]
  | command c rest h i => rw [h]; exact (commandEffect_bus i _).1

/-- A transaction gets exactly one response (R151). -/
theorem StepChange.responses_of_txn {s t : State} (hst : StepChange s t) {x : Txn} {rest : List Event}
    (hx : s.host = .txn x :: rest) : ∃ r, t.responses = s.responses ++ [r] := by
  cases hst with
  | idle h | reset rest h | resetDuringCmd c rest h => rw [h] at hx; cases hx
  | busError | read | writeReadOnly | writeLen | writeInput => exact ⟨_, rfl⟩
  | illegal | writeStatus => exact ⟨.ok 0, by simp⟩
  | command c rest h i => exact ⟨.ok 0, by rw [respond_responses, (commandEffect_bus i _).2]⟩

/-- Settles O7: every event runs to a next state, and each change a step can make takes that event and answers it. -/
theorem everyStepCompletesOneEvent : Obligations.EveryStepCompletesOneEvent := by
  refine ⟨fun s => ?_, fun s => step_idle⟩
  obtain ⟨t, ht⟩ := step_completes s
  have hst := stepChange_of_step ht
  exact ⟨t, ht, hst.host_eq, fun x rest => hst.responses_of_txn⟩

/-! ### The command that a write to CMD runs (R140) -/

/-- The step that writes a command's word to CMD. -/
theorem step_command {s : State} {c : Word} {i : Instr} {rest : List Event} (hd : decode c = .ok i)
    (h : s.host = .txn (cmdWrite c) :: rest) :
    step s = onNext (respond (.ok 0)) (exec i { s with host := rest }) := by
  rw [step_cmdWrite h, runCommand, hd]

/-- Settles O5: the two verdicts of the decoder. -/
theorem cmdWriteRunsDecodedCommand : Obligations.CmdWriteRunsDecodedCommand :=
  fun _ _ _ h => ⟨fun _ hd => step_command hd h, fun _ hd => step_illegalWord hd h⟩

/-- A table word that is a command is the number of a 32-bit word that decodes to it (R80). -/
theorem decode_of_decodeTableWord {nbits w : Nat} {i : Instr} (h : decodeTableWord nbits w = some i) :
    decode (BitVec.ofNat 32 (tableWord nbits w)) = .ok i := by
  unfold decodeTableWord at h
  split at h
  · split at h
    · next hd => rw [hd, Option.some.inj h]
    · cases h
  · cases h

/-- Settles O6: the placed write is the first event, and taking it gives back the state it was placed in. -/
theorem placedCommandIsRun : Obligations.PlacedCommandIsRun :=
  fun s _ _ h => step_command (rest := s.host) (decode_of_decodeTableWord h) rfl

/-! ### NOP (R147) -/

/-- Settles O16: NOP's effect is the identity. -/
theorem nopCommand : Obligations.NopCommand :=
  ⟨by decide, reservedFieldsIllegal (by decide), exec_eq .nop⟩

/-! ### The error record and the commands (R143) -/

/-- The states agree in every field but ERR and ECODE. -/
def SameBesidesErrorRecord (s t : State) : Prop :=
  ∃ (err : Bool) (ecode : BitVec 4), t = { s with err := err, ecode := ecode }

section
variable {s t : State}

theorem SameBesidesErrorRecord.raiseCmdError (h : SameBesidesErrorRecord s t) (code : CmdErrorCode) :
    SameBesidesErrorRecord (raiseCmdError code s) (raiseCmdError code t) := by
  obtain ⟨err, ecode, rfl⟩ := h
  rw [raiseCmdError_eq, raiseCmdError_eq]
  exact ⟨_, _, rfl⟩

theorem SameBesidesErrorRecord.runDecode (h : SameBesidesErrorRecord s t) :
    SameBesidesErrorRecord (runDecode s) (runDecode t) := by
  obtain ⟨err, ecode, rfl⟩ := h
  by_cases hlen : s.len.toNat = 2 * s.geom.W.toNat * s.geom.H.toNat
  · rw [runDecode_ok hlen, runDecode_ok (s := { s with err := err, ecode := ecode }) hlen]
    exact ⟨err, ecode, rfl⟩
  · rw [runDecode_fail hlen, runDecode_fail (s := { s with err := err, ecode := ecode }) hlen]
    exact .raiseCmdError ⟨err, ecode, rfl⟩ _

theorem SameBesidesErrorRecord.runRot270 (h : SameBesidesErrorRecord s t) :
    SameBesidesErrorRecord (runRot270 s) (runRot270 t) := by
  obtain ⟨err, ecode, rfl⟩ := h
  obtain hrv | hrv := Bool.eq_false_or_eq_true s.rv
  · rw [runRot270_ok hrv, runRot270_ok (s := { s with err := err, ecode := ecode }) hrv]
    exact ⟨err, ecode, rfl⟩
  · rw [runRot270_fail hrv, runRot270_fail (s := { s with err := err, ecode := ecode }) hrv]
    exact .raiseCmdError ⟨err, ecode, rfl⟩ _

theorem SameBesidesErrorRecord.runHflip (h : SameBesidesErrorRecord s t) :
    SameBesidesErrorRecord (runHflip s) (runHflip t) := by
  obtain ⟨err, ecode, rfl⟩ := h
  obtain hrv | hrv := Bool.eq_false_or_eq_true s.rv
  · rw [runHflip_ok hrv, runHflip_ok (s := { s with err := err, ecode := ecode }) hrv]
    exact ⟨err, ecode, rfl⟩
  · rw [runHflip_fail hrv, runHflip_fail (s := { s with err := err, ecode := ecode }) hrv]
    exact .raiseCmdError ⟨err, ecode, rfl⟩ _

theorem SameBesidesErrorRecord.runConvert (h : SameBesidesErrorRecord s t) :
    SameBesidesErrorRecord (runConvert s) (runConvert t) := by
  have hdecode := h.runDecode
  obtain ⟨err, ecode, rfl⟩ := h
  by_cases hlen : s.len.toNat = 2 * s.geom.W.toNat * s.geom.H.toNat
  · rw [runConvert_ok hlen, runConvert_ok (s := { s with err := err, ecode := ecode }) hlen]
    exact hdecode.runRot270.runHflip
  · rw [runConvert_fail hlen, runConvert_fail (s := { s with err := err, ecode := ecode }) hlen]
    exact hdecode

/-- No command's guard or effect reads the error record, but for the record itself. -/
theorem SameBesidesErrorRecord.commandEffect (h : SameBesidesErrorRecord s t) (i : Instr) :
    SameBesidesErrorRecord (commandEffect i s) (commandEffect i t) := by
  cases i with
  | nop => exact h
  | pixel w =>
    obtain ⟨err, ecode, rfl⟩ := h
    exact ⟨err, ecode, rfl⟩
  | decode => exact h.runDecode
  | rot270 => exact h.runRot270
  | hflip => exact h.runHflip
  | convert => exact h.runConvert

end

/-- Settles O37: every command takes states that agree besides the error record to such states. -/
theorem errorRecordBlocksNoCommand : Obligations.ErrorRecordBlocksNoCommand := by
  intro s t i err ecode hexec
  obtain rfl := Host.Outcome.next.inj ((exec_eq i s).symm.trans hexec)
  obtain ⟨err', ecode', hu⟩ := SameBesidesErrorRecord.commandEffect ⟨err, ecode, rfl⟩ i
  exact ⟨_, exec_eq i _, by rw [hu]⟩

end Sys2Proof.Proofs
end

section
/-! PROOFS of the control family, part 2: CONVERT. The raster that its three commands leave one after another, with no
premise on the state but the length that passes the size check. -/

namespace Sys2Proof.Proofs

open Sys2Proof.Machine Sys2Proof.Laws

/-! ### Rasters that hold given pixels -/

/-- A valid raster of width `cw` and height `ch` whose pixel `k` is `p k`, all of it written. Unlike `ValidRaster` it
asks nothing of the rest of the state. -/
structure HoldsRaster (s : State) (cw ch : Half) (p : Nat → Pixel) : Prop where
  rv : s.rv = true
  cw_eq : s.cw = cw
  ch_eq : s.ch = ch
  pixel : ∀ {k}, k < cw.toNat * ch.toNat → pixelAt s k = writtenPixel (p k)

/-- Reading a pixel that is written gives it, whichever draws stand by (R34). -/
theorem readPixel_of_pixelAt {s : State} {k : Nat} {p : Pixel} (h : pixelAt s k = writtenPixel p) (d : Nat) :
    readPixel s.rast k d = p := by
  simp only [pixelAt, writtenPixel, Prod.mk.injEq] at h
  obtain ⟨hr, hg, hb⟩ := h
  simp [readPixel, readByte_of_written hr, readByte_of_written hg, readByte_of_written hb]

/-- A byte of RAST is a channel of its pixel (R33). -/
theorem memGet_rast_eq_of_pixelAt_eq {s t : State} {a : Nat} (h : pixelAt s (a / 3) = pixelAt t (a / 3)) :
    memGet s.rast a = memGet t.rast a := by
  simp only [pixelAt, Prod.mk.injEq] at h
  obtain ⟨hr, hg, hb⟩ := h
  have hmod : a % 3 = 0 ∨ a % 3 = 1 ∨ a % 3 = 2 := by omega
  rcases hmod with h0 | h1 | h2
  · rwa [show 3 * (a / 3) = a by omega] at hr
  · rwa [show 3 * (a / 3) + 1 = a by omega] at hg
  · rwa [show 3 * (a / 3) + 2 = a by omega] at hb

section
variable {s t : State} {cw ch : Half} {p : Nat → Pixel}

/-- Rasters that hold the same pixels agree on every byte of them. -/
theorem HoldsRaster.memGet_eq (hs : HoldsRaster s cw ch p) (ht : HoldsRaster t cw ch p) {a : Nat}
    (ha : a < 3 * (cw.toNat * ch.toNat)) : memGet s.rast a = memGet t.rast a := by
  have hk : a / 3 < cw.toNat * ch.toNat := by omega
  exact memGet_rast_eq_of_pixelAt_eq ((hs.pixel hk).trans (ht.pixel hk).symm)

/-- ROT270 turns the raster and swaps its dimensions (R121). -/
theorem HoldsRaster.rot270 (h : HoldsRaster s cw ch p) :
    HoldsRaster (runRot270 s) ch cw (p ∘ rotSource cw.toNat ch.toNat) where
  rv := (runRot270_rv s).trans h.rv
  cw_eq := by rw [runRot270_ok h.rv, setRaster_cw, h.ch_eq]
  ch_eq := by rw [runRot270_ok h.rv, setRaster_ch, h.cw_eq]
  pixel := fun {k} hk => by
    have hk : k < cw.toNat * ch.toNat := Nat.mul_comm cw.toNat ch.toNat ▸ hk
    have hsource := h.pixel (rotSource_lt hk)
    obtain ⟨hrv, rfl, rfl, -⟩ := h
    rw [pixelAt_runRot270 hrv hk, readPixel_of_pixelAt hsource, Function.comp_apply]

/-- HFLIP mirrors the raster and keeps its dimensions (R124). -/
theorem HoldsRaster.hflip (h : HoldsRaster s cw ch p) :
    HoldsRaster (runHflip s) cw ch (p ∘ flipSource cw.toNat) where
  rv := (runHflip_rv s).trans h.rv
  cw_eq := by rw [runHflip_ok h.rv, moveRaster_cw, h.cw_eq]
  ch_eq := by rw [runHflip_ok h.rv, moveRaster_ch, h.ch_eq]
  pixel := fun {k} hk => by
    have hsource := h.pixel (flipSource_lt hk)
    obtain ⟨hrv, rfl, rfl, -⟩ := h
    rw [pixelAt_runHflip hrv hk, readPixel_of_pixelAt hsource, Function.comp_apply]

theorem HoldsRaster.memGet_rot270_beyond (h : HoldsRaster s cw ch p) {a : Nat}
    (ha : 3 * (cw.toNat * ch.toNat) ≤ a) : memGet (runRot270 s).rast a = memGet s.rast a := by
  obtain ⟨hrv, rfl, rfl, -⟩ := h
  rw [runRot270_ok hrv]
  exact memGet_moveRaster_beyond _ s ha

theorem HoldsRaster.memGet_hflip_beyond (h : HoldsRaster s cw ch p) {a : Nat}
    (ha : 3 * (cw.toNat * ch.toNat) ≤ a) : memGet (runHflip s).rast a = memGet s.rast a := by
  obtain ⟨hrv, rfl, rfl, -⟩ := h
  rw [runHflip_ok hrv]
  exact memGet_moveRaster_beyond _ s ha

end

/-! ### What CONVERT leaves (R145, R146) -/

/-- Pixel `i` of the input frame, decoded (R105, R106). -/
def inputPixel (s : State) (i : Nat) : Pixel := dec565 (ibufWord s.ibuf i s.draws)

/-- The input pixel that CONVERT moves to output pixel `k` of the raster of width `H`: HFLIP's source, and ROT270's
source of that (R145). -/
def convertSource (g : Geometry) (k : Nat) : Nat := rotSource g.W.toNat g.H.toNat (flipSource g.H.toNat k)

/-- The closed form of R146: the two reflections of CONVERT bring input pixel `(x, y)` to `(H-1-y, W-1-x)`. -/
theorem convertSource_pixel {g : Geometry} {x y : Nat} (hx : x < g.W.toNat) (hy : y < g.H.toNat) :
    convertSource g ((g.W.toNat - 1 - x) * g.H.toNat + (g.H.toNat - 1 - y)) = y * g.W.toNat + x := by
  rw [convertSource, flipSource_pixel (by omega), reflect_reflect hy, rotSource_pixel hy, reflect_reflect hx]

section
variable {s : State} (hlen : s.len.toNat = 2 * s.geom.W.toNat * s.geom.H.toNat)
include hlen

theorem holdsRaster_runDecode : HoldsRaster (runDecode s) s.geom.W s.geom.H (inputPixel s) := by
  rw [runDecode_ok hlen]
  exact ⟨rfl, rfl, rfl, pixelAt_decodeFrame⟩

theorem holdsRaster_runConvert :
    HoldsRaster (runConvert s) s.geom.H s.geom.W (inputPixel s ∘ convertSource s.geom) := by
  rw [runConvert_ok hlen]
  exact (holdsRaster_runDecode hlen).rot270.hflip

/-- CONVERT changes RV, RDIM, RAST and the draw counter, and no other field. -/
theorem runConvert_eq : runConvert s = { s with
    rv := true, cw := s.geom.H, ch := s.geom.W, rast := (runConvert s).rast,
    draws := s.draws + 8 * (s.geom.W.toNat * s.geom.H.toNat) } := by
  have hdecoded := holdsRaster_runDecode hlen
  have hconverted := holdsRaster_runConvert hlen
  have hsame : SameBesidesRaster { s with rv := true } (runConvert s) := by
    have hdecode : SameBesidesRaster { s with rv := true } (runDecode s) := by rw [runDecode_ok hlen]; rfl
    have hrot270 : SameBesidesRaster (runDecode s) (runRot270 (runDecode s)) := by
      rw [SameBesidesRaster, runRot270_eq hdecoded.rv]
    have hhflip : SameBesidesRaster (runRot270 (runDecode s)) (runHflip (runRot270 (runDecode s))) := by
      rw [SameBesidesRaster, runHflip_eq hdecoded.rot270.rv]
    rw [runConvert_ok hlen]
    exact (hdecode.trans hrot270).trans hhflip
  rw [SameBesidesRaster, hconverted.cw_eq, hconverted.ch_eq, runConvert_draws hlen] at hsame
  exact hsame

/-- CONVERT changes no byte beyond the raster's pixels. -/
theorem memGet_runConvert_beyond {a : Nat} (ha : 3 * (s.geom.W.toNat * s.geom.H.toNat) ≤ a) :
    memGet (runConvert s).rast a = memGet s.rast a := by
  have hdecoded := holdsRaster_runDecode hlen
  have ha' : 3 * (s.geom.H.toNat * s.geom.W.toNat) ≤ a := Nat.mul_comm s.geom.W.toNat s.geom.H.toNat ▸ ha
  rw [runConvert_ok hlen, hdecoded.rot270.memGet_hflip_beyond ha', hdecoded.memGet_rot270_beyond ha,
    runDecode_ok hlen, setRaster_rast, decodeFrame_rast, memGet_putPixels_outside]
  rwa [decodedPixels_length]

end

/-- On a size mismatch CONVERT is DECODE (R145). -/
theorem exec_convert_fail {s : State} (h : s.len.toNat ≠ 2 * s.geom.W.toNat * s.geom.H.toNat) :
    exec .convert s = exec .decode s := by
  rw [exec_sizeMismatch (.inr rfl) h, exec_sizeMismatch (.inl rfl) h]

/-- Settles O30: the failure is DECODE's, and the success runs the three commands, none of which fails. -/
theorem convertIsThePipeline : Obligations.ConvertIsThePipeline := by
  refine ⟨by decide, reservedFieldsIllegal (by decide), fun s h => (exec_convert_fail h).trans (exec_decode_fail h),
    fun s hlen => ⟨runDecode s, runRot270 (runDecode s), runConvert s, exec_eq .decode s, exec_eq .rot270 _, ?_,
      exec_eq .convert s, ?_⟩⟩
  · rw [runConvert_ok hlen]
    exact exec_eq .hflip _
  · rw [runConvert_eq hlen]
    exact ⟨rfl, rfl, rfl⟩

/-- Settles O31: the pixel at R146's place has input pixel `i` as its source. -/
theorem convertClosedForm : Obligations.ConvertClosedForm := by
  refine fun s hlen => ⟨runConvert s, exec_eq .convert s, runConvert_eq hlen, fun i hi => ?_,
    fun a => memGet_runConvert_beyond hlen⟩
  obtain ⟨x, y, hx, hy, rfl⟩ := exists_pixel hi
  rw [pixel_mod hx, pixel_div hx, (holdsRaster_runConvert hlen).pixel (pixel_lt (by omega) (by omega)),
    Function.comp_apply, convertSource_pixel hx hy, inputPixel]

/-- Settles O32: both results hold the pixels of the one input frame. -/
theorem convertIgnoresTheOldRaster : Obligations.ConvertIgnoresTheOldRaster := by
  intro s t m cw ch rv hlen hexec
  obtain rfl : runConvert s = t := Host.Outcome.next.inj hexec
  have hother := holdsRaster_runConvert (s := { s with rast := m, cw := cw, ch := ch, rv := rv }) hlen
  refine ⟨runConvert { s with rast := m, cw := cw, ch := ch, rv := rv }, exec_eq .convert _, ?_, fun a => ?_⟩
  · rw [runConvert_eq (s := { s with rast := m, cw := cw, ch := ch, rv := rv }) hlen, runConvert_eq hlen]
  · rw [rbytes, npix, Nat.mul_comm s.geom.W.toNat]
    exact hother.memGet_eq (holdsRaster_runConvert (s := s) hlen)

end Sys2Proof.Proofs
end

section
/-! PROOFS of the bus family (43_host_bus.md), part 1: the response to a transaction, and what the transactions on the
control registers do. -/

namespace Sys2Proof.Proofs

open Sys2Proof.Machine Sys2Proof.Laws

/-! ### The response to a transaction (R151, R152) -/

/-- The effect of a register write, a command included, gives no response of its own (R142). -/
theorem writeRegEffect_responses {r : Reg} {v : Word} {s u : State} (h : writeRegEffect r v s = .next u) :
    u.responses = s.responses := by
  obtain ⟨-, rfl⟩ | ⟨-, why, -, rfl⟩ | ⟨-, i, -, hi⟩ | ⟨-, rfl⟩ | ⟨-, rfl⟩ := writeRegEffect_cases h
  · rfl
  · exact raiseCmdError_responses _ s
  · rw [exec_eq] at hi
    cases hi
    exact (commandEffect_bus i s).2
  · exact writeStatus_responses v s
  · rfl

/-- A transaction with a target is answered `ok`, one without is answered `buserr` (R151, R152). -/
theorem transact_response {x : Txn} {s t : State} (h : transact x s = .next t) :
    ∃ r, t.responses = s.responses ++ [r] ∧ (r = .buserr ↔ target s.geom x = none) := by
  obtain ⟨ht, rfl⟩ | ⟨r, ht, -, rfl⟩ | ⟨r, u, ht, -, hu, rfl⟩ | ⟨a, n, ht, -, rfl⟩ | ⟨a, n, ht, -, rfl⟩ |
    ⟨a, n, ht, -, rfl⟩ := transact_cases h
  · exact ⟨.buserr, rfl, by simp [ht]⟩
  · exact ⟨.ok (readReg s r), rfl, by simp [ht]⟩
  · exact ⟨.ok 0, by rw [respond_responses, writeRegEffect_responses hu], by simp [ht]⟩
  · exact ⟨.ok (memRead s.ibuf a n s.draws), rfl, by simp [ht]⟩
  · exact ⟨.ok 0, rfl, by simp [ht]⟩
  · exact ⟨.ok (memRead s.rast a n s.draws), rfl, by simp [ht]⟩

/-- Settles O38: the transactions without a target are the illegal ones. -/
theorem legalTransactionsExactly : Obligations.LegalTransactionsExactly := by
  intro s x rest h
  obtain ⟨t, ht⟩ := transact_completes x { s with host := rest }
  obtain ⟨r, hr, hbuserr⟩ := transact_response ht
  exact ⟨t, r, (step_event h).trans ht, hr, hbuserr.trans (target_eq_none_iff s.geom x)⟩

/-! ### Register reads (R153) -/

/-- The step that reads a register. -/
theorem step_readReg {s : State} {r : Reg} {w : Word} {rest : List Event}
    (h : s.host = .txn ⟨.read, BitVec.ofNat 19 (regOffset r), 2, w⟩ :: rest) :
    step s = .next { s with host := rest, responses := s.responses ++ [.ok (readReg s r)] } := by
  rw [step_event h]
  simp only [runEvent, transact, target_reg]
  cases r <;> rfl

/-- A word of two halves, as R153 writes it. -/
theorem append_eq_shiftLeft_or (hi lo : Half) : (hi ++ lo : Word) = (hi.setWidth 32 <<< 16) ||| lo.setWidth 32 := by
  rw [BitVec.append_def, BitVec.shiftLeftZeroExtend_eq, BitVec.setWidth'_eq]

/-- Settles O41: each value is the one `readReg` gives. -/
theorem registerReads : Obligations.RegisterReads := by
  intro s a w rest h v hv
  obtain ⟨r, rfl, rfl⟩ : ∃ r, a = BitVec.ofNat 19 (regOffset r) ∧ v = readReg s r := by
    obtain ⟨ha, hv⟩ | ⟨ha, hv⟩ | ⟨ha, hv⟩ | ⟨ha, hv⟩ | ⟨ha, hv⟩ | ⟨ha, hv⟩ := hv
    · exact ⟨.geom, ha, hv.trans (append_eq_shiftLeft_or s.geom.H s.geom.W).symm⟩
    · exact ⟨.cmd, ha, hv⟩
    · exact ⟨.status, ha, hv⟩
    · exact ⟨.len, ha, hv⟩
    · exact ⟨.pixout, ha, hv⟩
    · exact ⟨.rdim, ha, hv.trans (append_eq_shiftLeft_or s.ch s.cw).symm⟩
  exact step_readReg h

/-! ### Register writes (R154) -/

/-- The step that writes a register. -/
theorem step_writeReg {s : State} {r : Reg} {v : Word} {rest : List Event}
    (h : s.host = .txn ⟨.write, BitVec.ofNat 19 (regOffset r), 2, v⟩ :: rest) :
    step s = writeReg r v { s with host := rest } := by
  rw [step_event h]
  simp only [runEvent, transact, target_reg]

/-- The write to STATUS, field by field (R26). -/
theorem writeStatus_eq (v : Word) (s : State) : writeStatus v s = { s with
    err := if v.getLsbD 1 = true then false else s.err
    ecode := if v.getLsbD 1 = true then 0 else s.ecode } := by
  unfold writeStatus
  split_ifs <;> rfl

/-- Settles O42: the effect of each register, and then the response. -/
theorem registerWrites : Obligations.RegisterWrites := by
  intro s a v rest h
  refine ⟨?_, ?_, ?_, ?_⟩
  · rintro (rfl | rfl | rfl)
    · exact step_writeReg (r := .geom) h
    · exact step_writeReg (r := .pixout) h
    · exact step_writeReg (r := .rdim) h
  · rintro rfl
    have hstep := step_cmdWrite h
    obtain ⟨u, hu⟩ := runCommand_completes v { s with host := rest }
    refine ⟨respond (.ok 0) u, by rw [hstep, hu, onNext_next], ?_, hstep⟩
    rw [respond_responses, writeRegEffect_responses (r := .cmd) hu]
  · rintro rfl
    rw [step_writeReg (r := .status) h, writeReg, writeRegEffect, onNext_next, writeStatus_eq]
    rfl
  · rintro rfl
    exact step_writeReg (r := .len) h

end Sys2Proof.Proofs
end

section
/-! PROOFS of the bus family, part 2: what writes and reads of the buffers do (R155 to R157), and which buffer a legal
transaction above the registers acts on. -/

namespace Sys2Proof.Proofs

open Sys2Proof.Machine Sys2Proof.Laws

/-! ### Writes of IBUF (R155) -/

/-- Settles O44: a legal write is inside IBUF, and its step is one `MemWrite`. -/
theorem inputWrite : Obligations.InputWrite := by
  intro s x rest n h hk hn hlow hlegal
  obtain ⟨halign, hsize⟩ := inside_ibuf_of_legal_write hlegal hk hn hlow
  have ht := target_of_inside_ibuf hn (Nat.add_sub_of_le hlow).symm halign hsize
  exact ⟨_, step_writeIbuf h hk ht, rfl, fun k => memGet_memWrite_inside s.ibuf x.wdata,
    fun a => memGet_memWrite_outside s.ibuf x.wdata⟩

/-! ### Legal transactions above the registers (R152) -/

theorem regOffset_lt_ibufBase (r : Reg) : regOffset r < ibufBase := by cases r <;> decide

/-- A legal transaction above the registers acts on IBUF, or it reads RAST. -/
theorem target_of_legal {g : Geometry} {x : Txn} {n : Nat} (hlegal : Legal g x) (hn : sizeBytes x.size = some n)
    (hlow : ibufBase ≤ x.addr.toNat) :
    (target g x = some (.ibuf (x.addr.toNat - ibufBase) n) ∧ x.addr.toNat - ibufBase + n ≤ ibytes g) ∨
    (target g x = some (.rast (x.addr.toNat - rastBase) n) ∧ x.kind = .read ∧ rastBase ≤ x.addr.toNat) := by
  obtain ⟨y, hy⟩ := Option.isSome_iff_exists.1 ((target_isSome_iff g x).2 hlegal)
  obtain ⟨n', hn', hat⟩ := targetAt_of_target hy
  obtain rfl : n = n' := Option.some.inj (hn.symm.trans hn')
  obtain ⟨-, ⟨r, -, haddr, -⟩ | ⟨rfl, -, hsize⟩ | ⟨rfl, hread, hbase, -⟩⟩ := targetAt_cases hat
  · have hreg := regOffset_lt_ibufBase r
    omega
  · exact .inl ⟨hy, hsize⟩
  · exact .inr ⟨hy, hread, hbase⟩

/-- In a build within R7, IBUF ends below RAST (R50). -/
theorem ibuf_end_le_rastBase {g : Geometry} (h : g.WellFormed = true) : ibufBase + ibytes g ≤ rastBase := by
  simp only [Geometry.WellFormed, Bool.and_eq_true, decide_eq_true_eq] at h
  simp only [ibufBase, rastBase, ibytes, npix]
  omega

/-! ### Reads of the buffers (R156, R157) -/

theorem sizeBytes_bounds {size : BitVec 2} {n : Nat} (h : sizeBytes size = some n) : 1 ≤ n ∧ n ≤ 4 := by
  rcases (sizeBytes_iff size n).1 h with ⟨-, rfl⟩ | ⟨-, rfl⟩ | ⟨-, rfl⟩ <;> decide

theorem readsAs_readByte (m : Memory) (a d : Nat) : ReadsAs m a d (readByte m a d) :=
  ⟨fun _ hw => readByte_of_written hw d, fun hm => readByte_of_unwritten hm d⟩

/-- Byte `k` of what `MemRead` gives is the byte at `a + k` (R53). -/
theorem memRead_byte (m : Memory) {a n d k : Nat} (hk : k < n) (hn : n ≤ 4) :
    (memRead m a n d).extractLsb' (8 * k) 8 = readByte m (a + k) (d + k) := by
  apply BitVec.eq_of_getLsbD_eq
  intro i hi
  rw [BitVec.getLsbD_extractLsb', memRead_getLsbD _ _ _ _ (by omega), show (8 * k + i) / 8 = k by omega,
    show (8 * k + i) % 8 = i by omega]
  simp [hk, hi]

/-- `MemRead` zero-extends (R53). -/
theorem memRead_ushiftRight_eq_zero (m : Memory) (a n d : Nat) : memRead m a n d >>> (8 * n) = 0 := by
  apply BitVec.eq_of_getLsbD_eq
  intro i hi
  rw [BitVec.getLsbD_ushiftRight, BitVec.ofNat_eq_ofNat, BitVec.getLsbD_zero]
  by_cases hbit : 8 * n + i < 32
  · rw [memRead_getLsbD _ _ _ _ hbit, decide_eq_false (by omega), Bool.false_and]
  · exact BitVec.getLsbD_of_ge _ _ (by omega)

/-- What `MemRead` gives, byte by byte: the bytes a read finds, with zeros above (R53, R34). -/
theorem memRead_readsAs (m : Memory) (a d : Nat) {size : BitVec 2} {n : Nat} (hn : sizeBytes size = some n) :
    (∀ k, k < n → ReadsAs m (a + k) (d + k) ((memRead m a n d).extractLsb' (8 * k) 8)) ∧
      memRead m a n d >>> (8 * n) = 0 := by
  refine ⟨fun k hk => ?_, memRead_ushiftRight_eq_zero m a n d⟩
  rw [memRead_byte m hk (sizeBytes_bounds hn).2]
  exact readsAs_readByte m (a + k) (d + k)

/-- The step that reads RAST, whatever RV (R157). -/
theorem step_readRast {s : State} {x : Txn} {rest : List Event} {a n : Nat} (h : s.host = .txn x :: rest)
    (hk : x.kind = .read) (ht : target s.geom x = some (.rast a n)) :
    step s = .next (hostRead s.rast a n { s with host := rest }) := by
  rw [step_event h]
  simp only [runEvent, transact, ht, hk]

/-- Settles O45: below RAST's window a legal read acts on IBUF. -/
theorem inputRead : Obligations.InputRead := by
  intro s x rest n h hk hn hlow hhigh hlegal
  obtain ⟨ht, -⟩ | ⟨-, -, hbase⟩ := target_of_legal hlegal hn hlow
  · exact ⟨_, step_readIbuf h hk ht, memRead_readsAs s.ibuf _ s.draws hn⟩
  · exact absurd hbase (Nat.not_le.2 hhigh)

/-- Settles O46: in RAST's window a legal transaction cannot act on IBUF, so it reads RAST. -/
theorem rasterRead : Obligations.RasterRead := by
  intro s x rest n hwf h hn hlow hlegal
  obtain ⟨-, hsize⟩ | ⟨ht, hk, -⟩ := target_of_legal hlegal hn ((by decide : ibufBase ≤ rastBase).trans hlow)
  · have hibuf := ibuf_end_le_rastBase hwf
    have hpos := (sizeBytes_bounds hn).1
    simp only [ibufBase, rastBase] at hsize hibuf
    omega
  · exact ⟨_, step_readRast h hk ht, memRead_readsAs s.rast _ s.draws hn⟩

end Sys2Proof.Proofs
end

section
/-! PROOFS of the exceptions family (60_exceptions.md): what a command does to the error record, by the guard that
fails, and what a bus error does. -/

namespace Sys2Proof.Proofs

open Sys2Proof.Machine Sys2Proof.Laws

/-! ### The guards of the commands (R141, R170) -/

/-- The guard of SIZE_MISMATCH fails (R107). -/
def SizeMismatch (i : Instr) (s : State) : Prop :=
  (i = .decode ∨ i = .convert) ∧ s.len.toNat ≠ 2 * s.geom.W.toNat * s.geom.H.toNat

/-- The guard of NOT_READY fails (R121, R124). -/
def NotReady (i : Instr) (s : State) : Prop := (i = .rot270 ∨ i = .hflip) ∧ s.rv = false

/-- No command has both guards (R170). -/
theorem SizeMismatch.not_notReady {i : Instr} {s : State} (h : SizeMismatch i s) : ¬ NotReady i s := by
  rintro ⟨hmove, -⟩
  obtain ⟨rfl | rfl, -⟩ := h <;> simp at hmove

/-- A command whose guards pass leaves the error record as it is. -/
theorem commandEffect_errorRecord {i : Instr} {s : State} (hsize : ¬ SizeMismatch i s) (hready : ¬ NotReady i s) :
    (commandEffect i s).err = s.err ∧ (commandEffect i s).ecode = s.ecode := by
  have hlen (hi : i = .decode ∨ i = .convert) : s.len.toNat = 2 * s.geom.W.toNat * s.geom.H.toNat :=
    not_not.1 fun h => hsize ⟨hi, h⟩
  have hrv (hi : i = .rot270 ∨ i = .hflip) : s.rv = true :=
    Bool.eq_true_of_not_eq_false fun h => hready ⟨hi, h⟩
  cases i with
  | nop | pixel w => exact ⟨rfl, rfl⟩
  | decode => rw [commandEffect, runDecode_ok (hlen (.inl rfl))]; exact ⟨rfl, rfl⟩
  | rot270 => rw [commandEffect, runRot270_eq (hrv (.inl rfl))]; exact ⟨rfl, rfl⟩
  | hflip => rw [commandEffect, runHflip_eq (hrv (.inr rfl))]; exact ⟨rfl, rfl⟩
  | convert => rw [commandEffect, runConvert_eq (hlen (.inr rfl))]; exact ⟨rfl, rfl⟩

/-- What a command can do to the error record, by the guard that fails: an inversion of `exec` that every claim about
command errors splits on. -/
inductive CommandOutcome (i : Instr) (s : State) : State → Prop
  /-- The size check fails (R106, R145). -/
  | sizeMismatch (h : SizeMismatch i s) : CommandOutcome i s (raiseCmdError .sizeMismatch (clearRaster s))
  /-- There is no valid raster to transform (R121, R124). -/
  | notReady (h : NotReady i s) : CommandOutcome i s { s with
      err := true, ecode := if s.err = true then s.ecode else 3 }
  /-- The guards pass. -/
  | passed {t : State} (hsize : ¬ SizeMismatch i s) (hready : ¬ NotReady i s) (herr : t.err = s.err)
      (hcode : t.ecode = s.ecode) : CommandOutcome i s t

/-- Every command is one of the outcomes of `CommandOutcome`. -/
theorem commandOutcome_of_exec {i : Instr} {s t : State} (h : exec i s = .next t) : CommandOutcome i s t := by
  by_cases hsize : SizeMismatch i s
  · obtain rfl := Host.Outcome.next.inj ((exec_sizeMismatch hsize.1 hsize.2).symm.trans h)
    exact .sizeMismatch hsize
  by_cases hready : NotReady i s
  · obtain rfl := Host.Outcome.next.inj ((exec_notReady hready.1 hready.2).symm.trans h)
    exact .notReady hready
  · obtain rfl := Host.Outcome.next.inj ((exec_eq i s).symm.trans h)
    obtain ⟨herr, hcode⟩ := commandEffect_errorRecord hsize hready
    exact .passed hsize hready herr hcode

/-! ### The first error (R172, R198) -/

theorem CommandOutcome.firstErrorKept {i : Instr} {s t : State} (h : CommandOutcome i s t) (herr : s.err = true) :
    t.err = true ∧ t.ecode = s.ecode := by
  cases h with
  | sizeMismatch | notReady => simp [herr]
  | passed _ _ herr' hcode => exact ⟨herr'.trans herr, hcode⟩

/-- Settles O34: a command's outcome keeps the first error, and so does the error of an illegal word. -/
theorem firstErrorIsKept : Obligations.FirstErrorIsKept := by
  refine fun s herr => ⟨fun i => ?_, fun c rest h => ?_⟩
  · exact ⟨_, exec_eq i s, (commandOutcome_of_exec (exec_eq i s)).firstErrorKept herr⟩
  · cases hd : decode c with
    | illegal why => exact ⟨_, step_illegalWord hd h, by simp [herr]⟩
    | ok i =>
      have hexec := exec_eq i { s with host := rest }
      exact ⟨respond (.ok 0) (commandEffect i { s with host := rest }), by rw [step_command hd h, hexec, onNext_next],
        (commandOutcome_of_exec hexec).firstErrorKept herr⟩

/-! ### The recorded code (R170, R173) -/

/-- Settles O35: each outcome has its own code, and no two outcomes share a command and state. -/
theorem recordedCodeNamesTheGuard : Obligations.RecordedCodeNamesTheGuard := by
  intro s t i herr hcode hexec
  change (t.ecode = 1 ↔ SizeMismatch i s) ∧ (t.ecode = 3 ↔ NotReady i s) ∧ _
  cases commandOutcome_of_exec hexec with
  | sizeMismatch h => simp [herr, ecodeOf, h, h.not_notReady]
  | notReady h =>
    have hsize : ¬ SizeMismatch i s := fun hs => hs.not_notReady h
    simp [herr, h, hsize]
  | passed hsize hready herr' hcode' => simp [herr, hcode, herr', hcode', hsize, hready]

/-! ### Precise command errors (R175) -/

/-- Settles O36: the two failing outcomes of a command, and the one of an illegal word, are updates of those fields. -/
theorem commandErrorsArePrecise : Obligations.CommandErrorsArePrecise := by
  refine ⟨fun s t i herr hexec hraised => ?_, fun s c why rest herr hd h => ?_⟩
  · cases commandOutcome_of_exec hexec with
    | sizeMismatch =>
      right
      simp [raiseCmdError_eq, herr, clearRaster, ecodeOf]
    | notReady =>
      left
      simp [herr]
    | passed _ _ herr' =>
      rw [herr', herr] at hraised
      cases hraised
  · rw [step_illegalWord hd h]
    simp [raiseCmdError_eq, herr, respond, ecodeOf]

/-! ### Bus errors (R176, R177) -/

/-- Settles O39: a transaction without a target is answered by `busError` alone. -/
theorem busErrorChangesNoState : Obligations.BusErrorChangesNoState := by
  intro s x rest h hlegal
  have htarget := (target_eq_none_iff s.geom x).2 hlegal
  rw [step_event h]
  simp only [runEvent, transact, htarget]
  rfl

/-- No command records or clears a fault of the run. -/
theorem commandEffect_faults (i : Instr) (s : State) : (commandEffect i s).faults = s.faults := by
  by_cases h : ∃ w, i = .pixel w
  · obtain ⟨w, rfl⟩ := h
    rfl
  · exact (commandEffect_keeps s (not_exists.1 h)).faults

/-- Settles O40: a bus error adds its fault, and every other change keeps the record. -/
theorem faultsAreNeverCleared : Obligations.FaultsAreNeverCleared := by
  intro s t hstep
  cases stepChange_of_step hstep with
  | busError x => exact ⟨[.busError x], rfl⟩
  | idle | reset | resetDuringCmd | read | writeReadOnly | writeLen | writeInput =>
    exact ⟨[], (List.append_nil s.faults).symm⟩
  | illegal | writeStatus => exact ⟨[], by simp⟩
  | command c rest h i => exact ⟨[], by simp [commandEffect_faults]⟩

end Sys2Proof.Proofs
end

section
/-! PROOFS of the reset and hazards family (70_reset_and_hazards.md): the run of a host program, which steps change
RAST, the events of `rst`, and a conversion that is repeated. -/

namespace Sys2Proof.Proofs

open Sys2Proof.Machine Sys2Proof.Laws

/-! ### Reset (R190, R191) -/

/-- Settles O49: both events of `rst` run `applyReset`. -/
theorem resetFromEveryState : Obligations.ResetFromEveryState := by
  rintro s e rest h (rfl | ⟨c, rfl⟩)
  · exact step_event h
  · exact step_event h

/-! ### Which steps change RAST (R196, R62) -/

/-- Settles O52: NOP and PIXEL keep RAST, and the other four commands are the ones named. -/
theorem onlyRasterCommandsChangeRast : Obligations.OnlyRasterCommandsChangeRast := by
  intro s t hstep hne
  cases stepChange_of_step hstep with
  | idle | busError | read | writeReadOnly | writeLen | writeInput => exact absurd rfl hne
  | illegal | writeStatus => exact absurd (by simp) hne
  | reset rest h => exact .inr (.inl ⟨rest, h⟩)
  | resetDuringCmd c rest h => exact .inr (.inr ⟨c, rest, h⟩)
  | command c rest h i hd =>
    refine .inl ⟨c, rest, h, ?_⟩
    cases i with
    | nop | pixel w => exact absurd rfl hne
    | decode => exact .inl hd
    | rot270 => exact .inr (.inl hd)
    | hflip => exact .inr (.inr (.inl hd))
    | convert => exact .inr (.inr (.inr hd))

/-! ### The run of a host program (R203) -/

/-- The record of the run holds a fault exactly when some response is `buserr` (R177). -/
def FaultsMatchResponses (s : State) : Prop := s.NoFault ↔ Response.buserr ∉ s.responses

/-- A bus error is recorded and answered together, and no other change adds a fault or a `buserr`. -/
theorem StepChange.faultsMatchResponses {s t : State} (hst : StepChange s t) (h : FaultsMatchResponses s) :
    FaultsMatchResponses t := by
  unfold FaultsMatchResponses State.NoFault at *
  cases hst with
  | idle | reset | resetDuringCmd => exact h
  | busError x => simp
  | read | writeReadOnly | writeLen | illegal | writeStatus => simpa using h
  | writeInput x rest _ _ a n => simpa [hostWriteIbuf] using h
  | command c rest _ i => simpa [commandEffect_faults, (commandEffect_bus i _).2] using h

/-- A run of `k + 1` steps is one step, and then a run of `k`. -/
theorem run_succ {M : Host.Core} {s u : M.State} (h : M.step s = .next u) (k : Nat) : M.run (k + 1) s = M.run k u := by
  rw [Host.Core.run, h]

/-- A queue of transactions runs to its end, one step and one response for each. -/
theorem run_transactions (program : List Txn) {s : State} (hhost : s.host = program.map .txn)
    (hmatch : FaultsMatchResponses s) :
    ∃ t, Host.Core.run core program.length s = .next t ∧ t.host = [] ∧
      t.responses.length = s.responses.length + program.length ∧ FaultsMatchResponses t := by
  induction program generalizing s with
  | nil => exact ⟨s, rfl, hhost, rfl, hmatch⟩
  | cons x program ih =>
    obtain ⟨u, hu⟩ := step_completes s
    have hst := stepChange_of_step hu
    have huhost : u.host = program.map .txn := by rw [hst.host_eq, hhost]; rfl
    obtain ⟨r, hr⟩ := hst.responses_of_txn hhost
    obtain ⟨t, hrun, hthost, hlen, htmatch⟩ := ih huhost (hst.faultsMatchResponses hmatch)
    refine ⟨t, (run_succ (M := core) hu program.length).trans hrun, hthost, ?_, htmatch⟩
    rw [hlen, hr, List.length_append, List.length_singleton, List.length_cons]
    omega

/-- Settles O8: the reset state has no fault and no response, and the queue that is placed runs to its end. -/
theorem everyHostProgramRunsToItsEnd : Obligations.EveryHostProgramRunsToItsEnd := by
  intro g program
  have hmatch : FaultsMatchResponses (State.ready g program) := iff_of_true rfl List.not_mem_nil
  obtain ⟨t, hrun, hhost, hlen, htmatch⟩ := run_transactions program (s := State.ready g program) rfl hmatch
  exact ⟨t, hrun, hhost, hlen.trans (Nat.zero_add _), htmatch⟩

/-! ### A repeated conversion (R199) -/

/-- A written byte reads the same, whichever two draws stand by (R34). -/
theorem readByte_eq_of_isSome {m : Memory} {a : Nat} (h : (memGet m a).isSome = true) (d d' : Nat) :
    readByte m a d = readByte m a d' := by
  obtain ⟨b, hb⟩ := Option.isSome_iff_exists.1 h
  rw [readByte_of_written hb, readByte_of_written hb]

/-- With IBUF written in full, states with the same IBUF have the same input pixels: no draw enters. -/
theorem inputPixel_eq_of_ibuf_eq {s t : State} (hinput : InputWritten s) (hibuf : t.ibuf = s.ibuf) {k : Nat}
    (hk : k < npix s.geom) : inputPixel t k = inputPixel s k := by
  have hhigh : 2 * k + 1 < ibytes s.geom := by unfold ibytes; omega
  rw [inputPixel, inputPixel, hibuf, ibufWord_eq, ibufWord_eq,
    readByte_eq_of_isSome (hinput _ hhigh) _ (s.draws + 2 * k + 1),
    readByte_eq_of_isSome (hinput _ (Nat.lt_of_succ_lt hhigh)) _ (s.draws + 2 * k)]

theorem convertSource_lt {g : Geometry} {k : Nat} (hk : k < g.H.toNat * g.W.toNat) : convertSource g k < npix g :=
  rotSource_lt (Nat.mul_comm g.H.toNat g.W.toNat ▸ flipSource_lt hk)

/-- What DECODE and CONVERT leave on a passing size check: a raster of dimensions and of input pixels that only the
geometry fixes. -/
theorem exists_holdsRaster_conversion {i : Instr} (hi : i = .decode ∨ i = .convert) (g : Geometry) :
    ∃ (cw ch : Half) (source : Nat → Nat), (∀ k, k < cw.toNat * ch.toNat → source k < npix g) ∧
      ∀ s : State, s.geom = g → s.len.toNat = 2 * s.geom.W.toNat * s.geom.H.toNat →
        HoldsRaster (commandEffect i s) cw ch (inputPixel s ∘ source) := by
  obtain rfl | rfl := hi
  · refine ⟨g.W, g.H, id, fun _ => id, ?_⟩
    rintro s rfl hlen
    exact holdsRaster_runDecode hlen
  · refine ⟨g.H, g.W, convertSource g, fun _ => convertSource_lt, ?_⟩
    rintro s rfl hlen
    exact holdsRaster_runConvert hlen

/-- On a passing size check with RV = 1 already, DECODE and CONVERT change RDIM, RAST and the draw counter alone. -/
theorem conversion_same {i : Instr} (hi : i = .decode ∨ i = .convert) {s : State}
    (hlen : s.len.toNat = 2 * s.geom.W.toNat * s.geom.H.toNat) (hrv : s.rv = true) :
    SameBesidesRaster s (commandEffect i s) := by
  obtain rfl | rfl := hi
  · rw [SameBesidesRaster, commandEffect, runDecode_ok hlen]
    simp [setRaster, decodeFrame, hrv]
  · rw [SameBesidesRaster, commandEffect, runConvert_eq hlen]
    simp [hrv]

theorem commandEffect_sizeMismatch {i : Instr} (hi : i = .decode ∨ i = .convert) {s : State}
    (hlen : s.len.toNat ≠ 2 * s.geom.W.toNat * s.geom.H.toNat) :
    commandEffect i s = raiseCmdError .sizeMismatch (clearRaster s) :=
  Host.Outcome.next.inj ((exec_eq i s).symm.trans (exec_sizeMismatch hi hlen))

/-- A failed size check leaves a state that a second failure keeps (R106, R145). -/
theorem sizeMismatch_twice (s : State) :
    raiseCmdError .sizeMismatch (clearRaster (raiseCmdError .sizeMismatch (clearRaster s))) =
      raiseCmdError .sizeMismatch (clearRaster s) := by
  rw [raiseCmdError_eq _ (clearRaster s), raiseCmdError_eq]
  rfl

/-- Settles O33: the second command finds the same input pixels, or fails the same size check. -/
theorem repeatedConversionGivesTheSame : Obligations.RepeatedConversionGivesTheSame := by
  intro s t i hinv hinput hi hexec
  obtain rfl := Host.Outcome.next.inj ((exec_eq i s).symm.trans hexec)
  refine ⟨_, exec_eq i _, ?_⟩
  obtain ⟨hgeom, hlenKept, hibuf⟩ := commandEffect_input i s
  by_cases hlen : s.len.toNat = 2 * s.geom.W.toNat * s.geom.H.toNat
  · have hlen' : (commandEffect i s).len.toNat =
        2 * (commandEffect i s).geom.W.toNat * (commandEffect i s).geom.H.toNat := by rwa [hgeom, hlenKept]
    obtain ⟨cw, ch, source, hsource, hholds⟩ := exists_holdsRaster_conversion hi s.geom
    have hfirst := hholds s rfl hlen
    have hsecond := hholds _ hgeom hlen'
    have hinvFirst := inv_commandEffect hinv i
    have hvalid : ValidRaster (commandEffect i s) cw ch := ⟨hinvFirst, hfirst.rv, hfirst.cw_eq, hfirst.ch_eq⟩
    refine hvalid.restored ⟨inv_commandEffect hinvFirst i, hsecond.rv, hsecond.cw_eq, hsecond.ch_eq⟩
      (conversion_same hi hlen' hfirst.rv) fun x y hx hy => ?_
    have hk := pixel_lt hx hy
    rw [hsecond.pixel hk, hfirst.pixel hk, Function.comp_apply, Function.comp_apply,
      inputPixel_eq_of_ibuf_eq hinput hibuf (hsource _ hk)]
  · have hlen' : (commandEffect i s).len.toNat ≠
        2 * (commandEffect i s).geom.W.toNat * (commandEffect i s).geom.H.toNat := by rwa [hgeom, hlenKept]
    rw [commandEffect_sizeMismatch hi hlen', commandEffect_sizeMismatch hi hlen, sizeMismatch_twice]

end Sys2Proof.Proofs
end
